-- ==== Sys2Proof/Word.lean ====
section
/-! DEFINITION. The word types of the engine: bytes, host addresses, transaction words. -/

namespace Sys2Proof

/-- One register cell, one symbol code, one item of host data: 8 bits (00_scope.md R4 `DATA_W`, `SYM_W`). -/
abbrev Byte := BitVec 8

/-- A host address, 10 bits (R4 `ADDR_W`; 20_memory.md R60). -/
abbrev Addr := BitVec 10

/-- The width of `ALEN`, the one register wider than a byte (10_state.md R24). -/
abbrev Half := BitVec 16

/-- A transaction word `XACT19` (30_encoding.md R91). -/
abbrev XWord := BitVec 19

end Sys2Proof
end

