-- ==== Sys2Proof/Syntax.lean ====
section
/-! DEFINITION. The instructions: one constructor per row of spec/opcode_table.json. -/

namespace Sys2Proof

/-- The two encoded things of 30_encoding.md R90: a host transaction and a command byte. -/
inductive Format where
  | xact19
  | cmd8
  deriving DecidableEq, Repr

/-- The seven rows of the opcode table. `wr` and `rd` are host transactions (20_memory.md R63, R64); the others are
commands (30_encoding.md R93), which have no operand fields (R90). -/
inductive Instr where
  /-- `WR(addr, wdata)`, R63. -/
  | wr (addr : Addr) (data : Byte)
  /-- `RD(addr)`, R64; the word's `wdata` is ignored (R91) and is no part of the instruction. -/
  | rd (addr : Addr)
  /-- command 0x00, 43_control.md R182 -/
  | ack
  /-- command 0x01, 40_alphabet.md R122 -/
  | setalpha
  /-- command 0x02, 41_encode.md R141 -/
  | encode
  /-- command 0x03, 42_decode.md R161 -/
  | decode
  /-- command 0x04, 40_alphabet.md R123 -/
  | clralpha
  deriving DecidableEq, Repr

/-- The format a row is encoded in (30_encoding.md R91 to R93). -/
def Instr.format : Instr → Format
  | .wr _ _ => .xact19
  | .rd _ => .xact19
  | .ack => .cmd8
  | .setalpha => .cmd8
  | .encode => .cmd8
  | .decode => .cmd8
  | .clralpha => .cmd8

/-- The number of bytes an encoding is listed with: 1 for `CMD8`; 3 for the 19 bits of `XACT19` (log 5). -/
def Format.bytes : Format → Nat
  | .xact19 => 3
  | .cmd8 => 1

end Sys2Proof
end

