-- ==== Sys2Proof/WellFormed.lean ====
section
/-! DEFINITION. Which raw bytes are an encoding at all. An `Instr` needs no further check: its fields have the widths of
30_encoding.md R91, so every term is well formed and the check is about the words it is read from. -/

namespace Sys2Proof

/-- A command byte that is a row of the command map; 0x05 to 0xFF are reserved (30_encoding.md R93, R94). -/
def wellFormedCmd (op : Byte) : Bool := op.toNat ≤ 4

/-- The byte list of one instruction: a command byte of the map, or the three bytes of a transaction word, low byte
first, whose bits above bit 18 are 0 (30_encoding.md R91: "20 bits, bit 19 always 0"; log 5). -/
def wellFormed : List Byte → Bool
  | [op] => wellFormedCmd op
  | [_, _, hi] => hi.toNat < 8
  | _ => false

end Sys2Proof
end

