-- ==== Sys2Proof/Decode.lean ====
section
/-! DEFINITION. The decoder, total on any bytes and rejecting by name, and the encoder (30_encoding.md R90 to R94). -/

namespace Sys2Proof

/-- Why bytes are no instruction of the table. -/
inductive DecodeError where
  /-- a command code 0x05 to 0xFF (R94); the machine still gives it the effect of 43_control.md R183 -/
  | reservedCommand (op : Byte)
  /-- a bit above bit 18 of a transaction word is set (R91) -/
  | surplusBits (hi : Byte)
  /-- neither one byte nor three -/
  | badLength (n : Nat)
  deriving DecidableEq, Repr

/-- The command map of R93: all 8 bits are compared. -/
def decodeCmd (op : Byte) : Except DecodeError Instr :=
  match op.toNat with
  | 0 => .ok .ack
  | 1 => .ok .setalpha
  | 2 => .ok .encode
  | 3 => .ok .decode
  | 4 => .ok .clralpha
  | _ => .error (.reservedCommand op)

/-- `XACT19`, R91: bit 18 is `we`, bits 17:8 are `addr`, bits 7:0 are `wdata`, ignored when `we` = 0. -/
def decodeXact (w : XWord) : Instr :=
  if w.getLsbD 18 then .wr (w.extractLsb' 8 10) (w.extractLsb' 0 8) else .rd (w.extractLsb' 8 10)

/-- The 19 bits of a transaction word from its three bytes, low byte first (log 5). -/
def xwordOfBytes (lo mid hi : Byte) : XWord := hi.extractLsb' 0 3 ++ mid ++ lo

/-- The decoder on bytes. -/
def decode : List Byte → Except DecodeError Instr
  | [op] => decodeCmd op
  | [lo, mid, hi] => if hi.toNat < 8 then .ok (decodeXact (xwordOfBytes lo mid hi)) else .error (.surplusBits hi)
  | bs => .error (.badLength bs.length)

/-- `{we, addr[9:0], wdata[7:0]}`, R91. -/
def xwordOf (we : Bool) (addr : Addr) (wdata : Byte) : XWord := BitVec.ofBool we ++ addr ++ wdata

/-- The three bytes a transaction word is listed with, low byte first; bits 23:19 are 0 (log 5). -/
def bytesOfXWord (w : XWord) : List Byte :=
  [w.extractLsb' 0 8, w.extractLsb' 8 8, (w.extractLsb' 16 3).setWidth 8]

/-- The encoder; a read's `wdata` is "written as 0x00 in listings" (R91), the codes are those of R93. -/
def encode : Instr → List Byte
  | .wr addr data => bytesOfXWord (xwordOf true addr data)
  | .rd addr => bytesOfXWord (xwordOf false addr 0x00)
  | .ack => [0x00]
  | .setalpha => [0x01]
  | .encode => [0x02]
  | .decode => [0x03]
  | .clralpha => [0x04]

/-- A word of the opcode table laid out as bytes: one byte for a row of up to 8 bits, three for a longer one. A number
that does not fit gives no bytes. -/
def tableBytes (nbits w : Nat) : List Byte :=
  if nbits ≤ 8 then
    if w < 256 then [BitVec.ofNat 8 w] else []
  else
    if w < 2 ^ 24 then [BitVec.ofNat 8 w, BitVec.ofNat 8 (w / 2 ^ 8), BitVec.ofNat 8 (w / 2 ^ 16)] else []

/-- What the decoder reads from a word of the opcode table. -/
def decodeTableWord (nbits w : Nat) : Option Instr :=
  match decode (tableBytes nbits w) with
  | .ok i => some i
  | .error _ => none

end Sys2Proof
end

