-- ==== Sys2Proof/Config.lean ====
section
/-! DEFINITION. What the engine fixes once. The parameters of 00_scope.md R4 "are fixed numbers in every rule of this
spec", and the model writes the numbers as the rules do: 16 bytes, 128 symbols, 255 table entries, bases 2 to 255. The
spec leaves no value open that a step could read, so there is no free value here; the one open parameter, the latency
`T_cmd`, is the position of a completion event in `State.agenda` (log 3). -/

namespace Sys2Proof.Config

/-- `VERSION_VALUE`, the constant read from `VERSION` (R4; 10_state.md R39). -/
abbrev version : Byte := 0x01

end Sys2Proof.Config
end

