-- ==== Sys2Proof/Machine/State.lean ====
section
/-! DEFINITION. The state of the engine (10_state.md R20 to R44), its reset value (70_reset_and_hazards.md R241), and the
reasons a step can stop. -/

namespace Sys2Proof.Machine

/-- One item of the agenda: which agent moves next, and with what (00_scope.md R5, R6; 20_memory.md R74). -/
inductive Event where
  /-- the host presents a transaction word (20_memory.md R62) -/
  | host (word : XWord)
  /-- the host issues a command and makes no transaction until it has completed (`cmd M`, `wait`, 30_encoding.md R106;
  log 2) -/
  | command (op : Byte)
  /-- the engine takes its step, the completion of the command in flight (43_control.md R181) -/
  | completion
  /-- a clock edge with `sel` = 0: no transaction (20_memory.md R62) -/
  | idle
  /-- a clock edge with `rst` = 1 (70_reset_and_hazards.md R240) -/
  | reset
  deriving DecidableEq, Repr

structure State where
  /-- `BYTES[0..15]`, R21 -/
  bytes : Vector Byte 16
  /-- `SYMS[0..127]`, R22 -/
  syms : Vector Byte 128
  /-- `ALPHA[0..254]`, R23 -/
  alpha : Vector Byte 255
  /-- `ALEN`, R24 -/
  alen : Half
  /-- `BLEN`, R25 -/
  blen : Byte
  /-- `SLEN`, R26 -/
  slen : Byte
  /-- `BASE`, R27 -/
  base : Byte
  /-- `CMD`, R28 -/
  cmd : Byte
  /-- `STATUS.BUSY`, R29 -/
  busy : Bool
  /-- `STATUS.DONE`, R30 -/
  done : Bool
  /-- `STATUS.ERR`, R31 -/
  err : Bool
  /-- `STATUS.AVALID`, R32 -/
  avalid : Bool
  /-- `STATUS.ACCERR`, R33 -/
  accerr : Bool
  /-- `CTRL.IE`, R34 -/
  ie : Bool
  /-- `CTRL.STRICT16`, R35 -/
  strict16 : Bool
  /-- `ERRCODE`, R36 -/
  errcode : Byte
  /-- `ERRSYM`, R37 -/
  errsym : Byte
  /-- `ERRIDX`, R38 -/
  erridx : Byte
  /-- the port's output `rdata` (20_memory.md R62): what the latest read returned, else 0x00 (log 4) -/
  rdata : Byte
  /-- the MODEL's own field: the events still to come. "The host's program" and the latency are "parameters of the step
  relation, not state" (R44; log 1). -/
  agenda : List Event
  deriving DecidableEq, Repr

/-- Why a step stops. -/
inductive Fault where
  /-- Raised by the completion of ENCODE and of DECODE when AVALID = 1 and `ALPHA[0..BASE-1]` is not an alphabet (fewer
  than two symbols, or a repeat): R8, R121, R140 and R160 define no result there. 10_state.md R43 item 5 rules such a
  state out of every run, so this stop is SAFE (log 6). -/
  | notAnAlphabet
  deriving DecidableEq, Repr

/-- Why an instruction has no meaning. No arm of `exec` and no step answers one. -/
inductive Refusal where
  /-- An instruction whose arm has no meaning yet; SAFE, since nothing is claimed of it. No instruction is left so. -/
  | notModelled (mnemonic : String)
  deriving DecidableEq, Repr

/-- The three outcomes of a step, for this machine. -/
abbrev Result := Host.Outcome State Fault Refusal

/-- The reset state, R241: everything 0 but `CTRL.STRICT16` = 1. `rdata` = 0x00 is R240; the empty agenda is log 1. -/
def State.reset : State where
  bytes := Vector.replicate 16 0x00
  syms := Vector.replicate 128 0x00
  alpha := Vector.replicate 255 0x00
  alen := 0x0000
  blen := 0x00
  slen := 0x00
  base := 0x00
  cmd := 0x00
  busy := false
  done := false
  err := false
  avalid := false
  accerr := false
  ie := false
  strict16 := true
  errcode := 0x00
  errsym := 0x00
  erridx := 0x00
  rdata := 0x00
  agenda := []

end Sys2Proof.Machine
end

