-- ==== Sys2Proof/Machine/Flags.lean ====
section
/-! DEFINITION. The bytes software sees of the status flags and control bits, the interrupt output, and the error codes. -/

namespace Sys2Proof.Machine

/-- `STATUS` as read: `{0b000, ACCERR, AVALID, ERR, DONE, BUSY}` (20_memory.md R64; 30_encoding.md R95). -/
def statusByte (s : State) : Byte :=
  0b000#3 ++ BitVec.ofBool s.accerr ++ BitVec.ofBool s.avalid ++ BitVec.ofBool s.err ++ BitVec.ofBool s.done ++
    BitVec.ofBool s.busy

/-- `CTRL` as read: `{0b000000, STRICT16, IE}` (20_memory.md R64; 30_encoding.md R96). -/
def ctrlByte (s : State) : Byte := 0b000000#6 ++ BitVec.ofBool s.strict16 ++ BitVec.ofBool s.ie

/-- The interrupt output, a level: `CTRL.IE and STATUS.DONE` (60_exceptions.md R217; 10_state.md R41). -/
def irq (s : State) : Bool := s.ie && s.done

/-- The failures of 60_exceptions.md R202. -/
inductive ErrCode where
  | ambiguous
  | tooLong
  | nonBase
  | byteLenEnc
  | byteLenDec
  | tooShort
  | noAlpha
  | locked
  | badCmd
  | symLen
  deriving DecidableEq, Repr

/-- The value `ERRCODE` holds for a failure (30_encoding.md R97). -/
def errValue : ErrCode → Byte
  | .ambiguous => 0x01
  | .tooLong => 0x02
  | .nonBase => 0x03
  | .byteLenEnc => 0x04
  | .byteLenDec => 0x05
  | .tooShort => 0x06
  | .noAlpha => 0x07
  | .locked => 0x08
  | .badCmd => 0x09
  | .symLen => 0x0A

end Sys2Proof.Machine
end

