-- ==== Sys2Proof/Machine/Operands.lean ====
section
/-! DEFINITION. The operand forms: what a host address names (20_memory.md R61), and the byte sequence, symbol string and
alphabet a command reads (30_encoding.md R99 to R101). -/

namespace Sys2Proof.Machine

/-- What a host address names. -/
inductive Reg where
  | cmd
  | status
  | ctrl
  | errcode
  | errsym
  | erridx
  | alenLo
  | alenHi
  | blen
  | slen
  | base
  | version
  | bytes (i : Fin 16)
  | syms (i : Fin 128)
  | alpha (i : Fin 255)
  | reserved
  deriving DecidableEq, Repr

/-- The addresses of the single registers (R61). -/
def scalarOf (n : Nat) : Reg :=
  match n with
  | 0x000 => .cmd
  | 0x001 => .status
  | 0x002 => .ctrl
  | 0x003 => .errcode
  | 0x004 => .errsym
  | 0x005 => .erridx
  | 0x006 => .alenLo
  | 0x007 => .alenHi
  | 0x008 => .blen
  | 0x009 => .slen
  | 0x00A => .base
  | 0x00F => .version
  | _ => .reserved

/-- The address map of R61: the three register files, the single registers, and "every address not listed is reserved". -/
def regOf (a : Addr) : Reg :=
  if h : 0x040 ≤ a.toNat ∧ a.toNat ≤ 0x04F then .bytes ⟨a.toNat - 0x040, by omega⟩
  else if h : 0x080 ≤ a.toNat ∧ a.toNat ≤ 0x0FF then .syms ⟨a.toNat - 0x080, by omega⟩
  else if h : 0x100 ≤ a.toNat ∧ a.toNat ≤ 0x1FE then .alpha ⟨a.toNat - 0x100, by omega⟩
  else scalarOf a.toNat

/-- The byte sequence `BYTES[0..BLEN-1]`, most significant byte first (R99; 20_memory.md R68). -/
def byteOperand (s : State) : List Byte := s.bytes.toList.take s.blen.toNat

/-- The symbol string `SYMS[0..SLEN-1]`, first character first (R100; 20_memory.md R69). -/
def symOperand (s : State) : List Byte := s.syms.toList.take s.slen.toNat

/-- The candidate alphabet `ALPHA[0..ALEN-1]` that SETALPHA validates (R101). -/
def candidate (s : State) : List Byte := s.alpha.toList.take s.alen.toNat

/-- The alphabet in force, `ALPHA[0..BASE-1]` (40_alphabet.md R120). -/
def alphabet (s : State) : List Byte := s.alpha.toList.take s.base.toNat

end Sys2Proof.Machine
end

