-- ==== Sys2Proof/Machine/Ops.lean ====
section
/-! DEFINITION. The named operations every meaning is written over: refusing an access, reading and writing a register,
accepting a command, and the two ways a completion ends. -/

namespace Sys2Proof.Machine

/-- **Refusal**: "the transaction has no effect on any state except `STATUS.ACCERR <- 1`" (20_memory.md R65). -/
def refuse (s : State) : State := { s with accerr := true }

/-- **Acceptance** of the command `v` (43_control.md R180). It is also what ends the record of a failure, the nearest thing
to a return from an exception (60_exceptions.md R220). -/
def accept (v : Byte) (s : State) : State :=
  { s with
    cmd := v
    done := false
    err := false
    errcode := 0x00
    errsym := 0x00
    erridx := 0x00
    busy := s.busy || decide (v ≠ 0x00) }

/-- `succeed`, the last action of a successful completion (43_control.md R181). -/
def succeed (s : State) : State := { s with busy := false, done := true }

/-- `raise E_X(sym, pos)`, the last action of a failing completion: everything this hardware has of taking an exception
(60_exceptions.md R201, R219). -/
def raise (e : ErrCode) (sym pos : Byte) (s : State) : State :=
  { s with errcode := errValue e, errsym := sym, erridx := pos, busy := false, done := true, err := true }

/-- The registers that may be read while `BUSY` = 1 (20_memory.md R66). -/
def readableWhileBusy : Reg → Bool
  | .cmd | .status | .ctrl | .version => true
  | _ => false

/-- The value a read of a register returns while `BUSY` = 0; `none` where the read is refused (20_memory.md R64). -/
def readReg (r : Reg) (s : State) : Option Byte :=
  match r with
  | .cmd => some s.cmd
  | .status => some (statusByte s)
  | .ctrl => some (ctrlByte s)
  | .errcode => some s.errcode
  | .errsym => some s.errsym
  | .erridx => some s.erridx
  | .alenLo => some (s.alen.extractLsb' 0 8)
  | .alenHi => some (s.alen.extractLsb' 8 8)
  | .blen => some s.blen
  | .slen => some s.slen
  | .base => some s.base
  | .version => some Config.version
  | .bytes i => some s.bytes[i]
  | .syms i => some s.syms[i]
  | .alpha i => some s.alpha[i]
  | .reserved => none

/-- The effect of a write while `BUSY` = 0 (20_memory.md R63); `ALEN` and `ALPHA` are locked while `AVALID` = 1 (R67). -/
def writeReg (r : Reg) (v : Byte) (s : State) : State :=
  match r with
  | .cmd => accept v s
  | .status => if v.getLsbD 4 then { s with accerr := false } else s
  | .ctrl => { s with ie := v.getLsbD 0, strict16 := v.getLsbD 1 }
  | .alenLo => if s.avalid then refuse s else { s with alen := s.alen.extractLsb' 8 8 ++ v }
  | .alenHi => if s.avalid then refuse s else { s with alen := v ++ s.alen.extractLsb' 0 8 }
  | .blen => { s with blen := v }
  | .slen => { s with slen := v }
  | .bytes i => { s with bytes := s.bytes.set i v }
  | .syms i => { s with syms := s.syms.set i v }
  | .alpha i => if s.avalid then refuse s else { s with alpha := s.alpha.set i v }
  | .errcode | .errsym | .erridx | .base | .version | .reserved => refuse s

/-- A host write transaction (R63): refused whole while `BUSY` = 1 (R66). `rdata` carries no read data afterwards (R62). -/
def hostWrite (a : Addr) (v : Byte) (s : State) : State :=
  let s := { s with rdata := 0x00 }
  if s.busy then refuse s else writeReg (regOf a) v s

/-- A host read transaction (R64): the value on `rdata`; 0x00 and `ACCERR` where it is refused (R65, R66). -/
def hostRead (a : Addr) (s : State) : State :=
  if s.busy && !readableWhileBusy (regOf a) then
    { refuse s with rdata := 0x00 }
  else
    match readReg (regOf a) s with
    | some v => { s with rdata := v }
    | none => { refuse s with rdata := 0x00 }

/-- A command issued and run to its end: the write `WR(0x000, op)` (43_control.md R180), then, if it was accepted, the
completion `fin` (R181) with no transaction between (log 2). While `BUSY` = 1 the write is refused and nothing follows. -/
def issue (op : Byte) (fin : State → Result) (s : State) : Result :=
  if s.busy then .next (hostWrite 0x000 op s) else fin (hostWrite 0x000 op s)

/-- A register file of `n` cells holding `l` from cell 0 on, 0x00 beyond it (41_encode.md R141, 42_decode.md R161). -/
def fill (n : Nat) (l : List Byte) : Vector Byte n := Vector.ofFn fun i => l.getD i 0x00

end Sys2Proof.Machine
end

