-- ==== Sys2Proof/Machine/Radix.lean ====
section
/-! DEFINITION. The mathematical functions of the spec: `lead`, `val`, `digits` (00_scope.md R8), `idx` (40_alphabet.md
R121), `enc` (41_encode.md R140), `dec` (42_decode.md R160). All arithmetic is on naturals and never wraps (R7, R146, R166). -/

namespace Sys2Proof.Machine

/-- `lead(s, e)`: the number of leading elements of `s` equal to `e` (R8). -/
def lead (s : List Byte) (e : Byte) : Nat :=
  match s with
  | [] => 0
  | x :: xs => if x = e then lead xs e + 1 else 0

/-- `val(d, B)`: the value of a digit sequence, most significant digit first (R8). -/
def val (d : List Nat) (B : Nat) : Nat := d.foldl (fun v x => v * B + x) 0

/-- Repeated division by `B`, collecting the remainders in reverse order of their production (41_encode.md R146). The
first argument bounds the number of divisions. -/
def digitsFuel : Nat → Nat → Nat → List Nat → List Nat
  | 0, _, _, acc => acc
  | k + 1, V, B, acc => if V = 0 then acc else digitsFuel k (V / B) B (V % B :: acc)

/-- `digits(V, B)` for `B ≥ 2`: the minimal base-`B` digits of `V`, most significant first, `[]` when `V = 0` (R8). A number
of `k` bits has at most `k` digits, so `log2 V + 1` divisions suffice. -/
def digits (V B : Nat) : List Nat := digitsFuel (V.log2 + 1) V B []

/-- `idx(c)` in the alphabet `A`: the position of the symbol code `c`, or `none` (40_alphabet.md R121). -/
def idx (A : List Byte) (c : Byte) : Option Nat := A.idxOf? c

/-- `enc(A, b)`, R140: one zero symbol for each leading zero byte, then the minimal digits of the rest as symbols. -/
def enc (A b : List Byte) : List Byte :=
  let z := lead b 0x00
  let V := val ((b.drop z).map BitVec.toNat) 256
  List.replicate z (A.getD 0 0x00) ++ (digits V A.length).map fun i => A.getD i 0x00

/-- `dec(A, s)`, R160: one zero byte for each leading zero symbol, then the minimal bytes of the rest. It "requires
`idx(s[k]) != none` for all `k`". -/
def dec (A s : List Byte) : List Byte :=
  let z := lead s (A.getD 0 0x00)
  let V := val ((s.drop z).map fun c => (idx A c).getD 0) A.length
  List.replicate z 0x00 ++ (digits V 256).map (BitVec.ofNat 8)

/-- The scan of SETALPHA from index `j` on, `seen` being the symbols before it: the first symbol met for the second time,
with its index (40_alphabet.md R122, R126). -/
def firstDupFrom (j : Nat) (seen : List Byte) : List Byte → Option (Byte × Nat)
  | [] => none
  | c :: rest => if seen.contains c then some (c, j) else firstDupFrom (j + 1) (c :: seen) rest

/-- The first duplicate symbol of a table and the index of its second occurrence (R126). -/
def firstDup (l : List Byte) : Option (Byte × Nat) := firstDupFrom 0 [] l

/-- The scan of DECODE from index `k` on: the first symbol outside the alphabet, with its index (42_decode.md R161). -/
def firstOutsideFrom (A : List Byte) (k : Nat) : List Byte → Option (Byte × Nat)
  | [] => none
  | c :: rest => if (idx A c).isNone then some (c, k) else firstOutsideFrom A (k + 1) rest

/-- The first symbol of `s` that is not in `A`, and its index. -/
def firstOutside (A s : List Byte) : Option (Byte × Nat) := firstOutsideFrom A 0 s

/-- An alphabet: 2 to 255 symbols, pairwise different (40_alphabet.md R120). -/
def isAlphabet (A : List Byte) : Bool := decide (2 ≤ A.length) && decide (A.length ≤ 255) && (firstDup A).isNone

end Sys2Proof.Machine
end

