-- ==== Sys2Proof/Machine/Alphabet.lean ====
section
/-! DEFINITION. The alphabet commands, SETALPHA (40_alphabet.md R122) and CLRALPHA (R123). -/

namespace Sys2Proof.Machine

/-- `SETALPHA.complete`, R122: the four tests in the order of 60_exceptions.md R213, then the lock. -/
def setalphaComplete (s : State) : Result :=
  let N := s.alen.toNat
  if s.avalid then .next (raise .locked 0x00 0x00 s)
  else if N > 255 then .next (raise .tooLong 0x00 0x00 s)
  else if N < 2 then .next (raise .tooShort 0x00 0x00 s)
  else
    match firstDup (candidate s) with
    | some (c, j) => .next (raise .ambiguous c (BitVec.ofNat 8 j) s)
    | none => .next (succeed { s with avalid := true, base := BitVec.ofNat 8 N })

/-- `CLRALPHA.complete`, R123. -/
def clralphaComplete (s : State) : Result := .next (succeed { s with avalid := false, base := 0x00 })

/-- SETALPHA, command 0x01. -/
def execSetalpha (s : State) : Result := issue 0x01 setalphaComplete s

/-- CLRALPHA, command 0x04. -/
def execClralpha (s : State) : Result := issue 0x04 clralphaComplete s

end Sys2Proof.Machine
end

