-- ==== Sys2Proof/Machine/DecodeCommand.lean ====
section
/-! DEFINITION. DECODE (42_decode.md R161). -/

namespace Sys2Proof.Machine

/-- `dec_fail(code, sym, pos)`: the output is emptied, then the failure is raised (R161). -/
def decFail (e : ErrCode) (sym pos : Byte) (s : State) : State :=
  raise e sym pos { s with bytes := fill 16 [], blen := 0x00 }

/-- `DECODE.complete`, R161: membership of the whole string is judged before any length. The stop stands where `idx` would
be asked of something that is no alphabet (log 6). -/
def decodeComplete (s : State) : Result :=
  let L := s.slen.toNat
  if !s.avalid then .next (decFail .noAlpha 0x00 0x00 s)
  else if L > 128 then .next (decFail .symLen 0x00 0x00 s)
  else if !isAlphabet (alphabet s) then .fault .notAnAlphabet
  else
    match firstOutside (alphabet s) (symOperand s) with
    | some (c, k) => .next (decFail .nonBase c (BitVec.ofNat 8 k) s)
    | none =>
      let y := dec (alphabet s) (symOperand s)
      if y.length > 16 then .next (decFail .byteLenDec 0x00 0x00 s)
      else if s.strict16 && decide (y.length ≠ 16) then .next (decFail .byteLenDec 0x00 0x00 s)
      else .next (succeed { s with bytes := fill 16 y, blen := BitVec.ofNat 8 y.length })

/-- DECODE, command 0x03. -/
def execDecode (s : State) : Result := issue 0x03 decodeComplete s

end Sys2Proof.Machine
end

