-- ==== Sys2Proof/Machine/EncodeCommand.lean ====
section
/-! DEFINITION. ENCODE (41_encode.md R141). -/

namespace Sys2Proof.Machine

/-- `enc_fail(code)`: the output is emptied, then the failure is raised (R141). -/
def encFail (e : ErrCode) (s : State) : State := raise e 0x00 0x00 { s with syms := fill 128 [], slen := 0x00 }

/-- `ENCODE.complete`, R141. The stop stands where `enc` would be asked of something that is no alphabet (log 6). -/
def encodeComplete (s : State) : Result :=
  let n := s.blen.toNat
  if !s.avalid then .next (encFail .noAlpha s)
  else if n > 16 then .next (encFail .byteLenEnc s)
  else if s.strict16 && decide (n ≠ 16) then .next (encFail .byteLenEnc s)
  else if !isAlphabet (alphabet s) then .fault .notAnAlphabet
  else
    let r := enc (alphabet s) (byteOperand s)
    .next (succeed { s with syms := fill 128 r, slen := BitVec.ofNat 8 r.length })

/-- ENCODE, command 0x02. -/
def execEncode (s : State) : Result := issue 0x02 encodeComplete s

end Sys2Proof.Machine
end

