-- ==== Sys2Proof/Machine/Protocol.lean ====
section
/-! DEFINITION. The host transactions WR and RD (20_memory.md R63, R64), ACK (43_control.md R182), the reserved command codes
(R183), and the engine's one step, the completion of the command in flight (R181). -/

namespace Sys2Proof.Machine

/-- `WR(a, v)`, R63. -/
def execWr (a : Addr) (v : Byte) (s : State) : Result := .next (hostWrite a v s)

/-- `RD(a)`, R64. -/
def execRd (a : Addr) (s : State) : Result := .next (hostRead a s)

/-- ACK, command 0x00: "exactly the acceptance step of rule R180 with v = 0x00 and nothing else" (R182). -/
def execAck (s : State) : Result := issue 0x00 .next s

/-- The completion of a reserved command: `raise E_BADCMD(0x00, 0x00)` (R183). -/
def reservedComplete (s : State) : Result := .next (raise .badCmd 0x00 0x00 s)

/-- A reserved command code issued and run to its end (R183; 30_encoding.md R94). -/
def execReserved (op : Byte) (s : State) : Result := issue op reservedComplete s

/-- The `case CMD of` of R181. -/
def completeCommand (s : State) : Result :=
  match s.cmd.toNat with
  | 1 => setalphaComplete s
  | 2 => encodeComplete s
  | 3 => decodeComplete s
  | 4 => clralphaComplete s
  | _ => reservedComplete s

/-- The engine's step, "enabled iff STATUS.BUSY = 1" (R181); while `BUSY` = 0 nothing happens (log 8). -/
def complete (s : State) : Result := if s.busy then completeCommand s else .next s

end Sys2Proof.Machine
end

