-- ==== Sys2Proof/Machine/Dispatch.lean ====
section
/-! DEFINITION. One arm per row of spec/opcode_table.json. -/

namespace Sys2Proof.Machine

def exec (i : Instr) (s : State) : Host.Outcome State Fault Refusal :=
  match i with
  | .wr a v => Sys2Proof.Machine.execWr a v s
  | .rd a => Sys2Proof.Machine.execRd a s
  | .ack => Sys2Proof.Machine.execAck s
  | .setalpha => Sys2Proof.Machine.execSetalpha s
  | .encode => Sys2Proof.Machine.execEncode s
  | .decode => Sys2Proof.Machine.execDecode s
  | .clralpha => Sys2Proof.Machine.execClralpha s

end Sys2Proof.Machine
end

