-- ==== Sys2Proof/Machine/Events.lean ====
section
/-! DEFINITION. What each event of the agenda does to the state, and one rising clock edge of the port as a sequence of such
atomic steps (20_memory.md R62, R74, R77; 70_reset_and_hazards.md R240). -/

namespace Sys2Proof.Machine

/-- An edge with `sel` = 0: no transaction, `rdata` is 0x00 (R62). -/
def idleEdge (s : State) : State := { s with rdata := 0x00 }

/-- Reset: the whole state takes its reset values (R240, R241), also with a command in flight (R242). The agenda, the outside
world's future, is not the engine's state and stays (log 1). -/
def resetEdge (s : State) : State := { State.reset with agenda := s.agenda }

/-- A command byte: the instruction it decodes to, or the reserved code's own effect (43_control.md R183). -/
def runCommand (op : Byte) (s : State) : Result :=
  match decodeCmd op with
  | .ok i => exec i s
  | .error _ => execReserved op s

/-- One event. -/
def runEvent (e : Event) (s : State) : Result :=
  match e with
  | .host w => exec (decodeXact w) s
  | .command op => runCommand op s
  | .completion => complete s
  | .idle => .next (idleEdge s)
  | .reset => .next (resetEdge s)

/-- The inputs of the block at one rising edge (R62, R240), and whether a completion is due at it (the open latency
`T_cmd`, 70_reset_and_hazards.md R253). -/
structure Pins where
  rst : Bool
  sel : Bool
  we : Bool
  addr : Addr
  wdata : Byte
  completionDue : Bool
  deriving DecidableEq, Repr

/-- One rising edge of `clk`. Reset wins over both (R240). Otherwise the transaction, if `sel` = 1, is evaluated against the
state before the edge, and then a completion that is due takes place (R77); a command accepted at this very edge is not yet
in flight, since `T_cmd >= 1` (R253; log 11). -/
def clockEdge (p : Pins) (s : State) : Result :=
  if p.rst then .next (resetEdge s)
  else
    match (if p.sel then exec (decodeXact (xwordOf p.we p.addr p.wdata)) s else .next (idleEdge s)) with
    | .next t => if p.completionDue && s.busy then complete t else .next t
    | .fault r => .fault r
    | .refused r => .refused r

end Sys2Proof.Machine
end

