-- ==== Sys2Proof/Machine/Step.lean ====
section
/-! DEFINITION. One step of the whole machine: the next event of the agenda (00_scope.md R6; 20_memory.md R74). There is no
program counter and nothing is fetched from memory (10_state.md R40); the agenda stands for the host's program and the
engine's latency (log 1). -/

namespace Sys2Proof.Machine

/-- The next event takes place. When none is left, a command in flight completes, since an enabled completion is eventually
taken (43_control.md R181, 70_reset_and_hazards.md R253; log 3), and an idle engine stays idle (60_exceptions.md R227). -/
def step (s : State) : Host.Outcome State Fault Refusal :=
  match s.agenda with
  | [] => if s.busy then complete s else .next (idleEdge s)
  | e :: rest => runEvent e { s with agenda := rest }

/-- The event that presents an instruction given by its bytes. -/
def eventOf : List Byte → Option Event
  | [op] => some (.command op)
  | [lo, mid, hi] => if hi.toNat < 8 then some (.host (xwordOfBytes lo mid hi)) else none
  | _ => none

/-- `s` with the instruction of the table word `w` as the next event. A word that is no instruction leaves `s` as it is. -/
def State.withFetchWord (s : State) (nbits w : Nat) : State :=
  match eventOf (tableBytes nbits w) with
  | some e => { s with agenda := e :: s.agenda }
  | none => s

end Sys2Proof.Machine
end

