-- ==== Sys2Proof/Machine/Reference.lean ====
section
/-! DEFINITION. The reference micro-architectures, byte-wise long division (41_encode.md R145) and byte-wise
multiply-accumulate (42_decode.md R165). They are informative: no step calls them. They are here to be held against `enc` and
`dec`, "so that a hardware implementation and a model's executable version can be compared step by step". -/

namespace Sys2Proof.Machine

/-- One long division of `W` by `B` with the remainder `r` so far: the quotient's bytes and the last remainder (R145, the
inner loop). -/
def longDiv (B : Nat) (r : Nat) : List Nat → List Nat × Nat
  | [] => ([], r)
  | w :: ws =>
    let t := r * 256 + w
    let p := longDiv B (t % B) ws
    (t / B :: p.1, p.2)

/-- The loop `while some W[i] != 0` of R145, at most as many passes as the first argument says; `T` is the digit stack,
least significant digit first. -/
def divLoop (B : Nat) : Nat → List Nat → List Nat → List Nat
  | 0, _, T => T
  | k + 1, W, T =>
    if W.all (· == 0) then T
    else
      let p := longDiv B 0 W
      divLoop B k p.1 (T ++ [p.2])

/-- R145, whole; "it makes m passes, m <= 8(n-z)". -/
def encReference (A b : List Byte) : List Byte :=
  let z := lead b 0x00
  let W := (b.drop z).map BitVec.toNat
  let T := divLoop A.length (8 * W.length) W []
  List.replicate z (A.getD 0 0x00) ++ T.reverse.map fun i => A.getD i 0x00

/-- `W <- W*B + c`, byte by byte from the last byte to the first: the new bytes and the carry out (R165, the inner loop). -/
def mulAdd (B : Nat) : List Nat → Nat → List Nat × Nat
  | [], c => ([], c)
  | w :: ws, c =>
    let p := mulAdd B ws c
    let t := w * B + p.2
    (t % 256 :: p.1, t / 256)

/-- The loop over the digits of R165: the work register and the sticky overflow. -/
def accLoop (B : Nat) : List Nat → List Nat × Bool → List Nat × Bool
  | [], r => r
  | c :: cs, r =>
    let p := mulAdd B r.1 c
    accLoop B cs (p.1, r.2 || decide (p.2 ≠ 0))

/-- R165 after its membership tests and before its `STRICT16` test; `none` is its failure `E_BYTELEN_DEC` for a result of
more than 16 bytes. -/
def decReference (A s : List Byte) : Option (List Byte) :=
  let z := lead s (A.getD 0 0x00)
  let r := accLoop A.length ((s.drop z).map fun c => (idx A c).getD 0) (List.replicate 16 0, false)
  let p := (r.1.takeWhile (· == 0)).length
  let nb := 16 - p
  if r.2 || decide (z + nb > 16) then none
  else some (List.replicate z 0x00 ++ (r.1.drop p).map (BitVec.ofNat 8))

end Sys2Proof.Machine
end

