-- ==== Sys2Proof/Safety.lean ====
section
/-! DEFINITION. What claims are stated in: the invariants of 10_state.md R43, the states a run reaches, and the two ways a
command can end. -/

namespace Sys2Proof.Machine

/-- R43 item 1. -/
abbrev BusyIsQuiet (s : State) : Prop :=
  s.busy = true → s.done = false ∧ s.err = false ∧ s.errcode = 0x00 ∧ s.errsym = 0x00 ∧ s.erridx = 0x00

/-- R43 item 2. -/
abbrev ErrIsDone (s : State) : Prop := s.err = true → s.done = true

/-- R43 item 3. -/
abbrev ErrHasCode (s : State) : Prop := s.err = true ↔ s.errcode ≠ 0x00

/-- R43 item 4. -/
abbrev DetailHasCode (s : State) : Prop :=
  s.errsym ≠ 0x00 ∨ s.erridx ≠ 0x00 → s.errcode = errValue .ambiguous ∨ s.errcode = errValue .nonBase

/-- R43 item 5; `BASE <= 255` is the width of the register. -/
abbrev LockedIsAlphabet (s : State) : Prop :=
  (s.avalid = true ↔ s.base ≠ 0x00) ∧
    (s.avalid = true → 2 ≤ s.base.toNat ∧ s.alen.toNat = s.base.toNat ∧ (alphabet s).Nodup)

/-- R43 item 6. -/
abbrev BusyHasCommand (s : State) : Prop := s.busy = true → s.cmd ≠ 0x00

/-- `ERRCODE` never holds 0x0B to 0xFF (30_encoding.md R97, R103). -/
abbrev CodeIsKnown (s : State) : Prop := s.errcode.toNat ≤ 0x0A

/-- The invariants of the state: R43, and the range of `ERRCODE`. -/
abbrev Inv (s : State) : Prop :=
  BusyIsQuiet s ∧ ErrIsDone s ∧ ErrHasCode s ∧ DetailHasCode s ∧ LockedIsAlphabet s ∧ BusyHasCommand s ∧ CodeIsKnown s

/-- The states a run reaches: from reset, with any agenda, by steps (R43 "after reset, after any sequence of transactions and
completions"). -/
inductive Reachable : State → Prop where
  | reset (agenda : List Event) : Reachable { State.reset with agenda := agenda }
  | step {s t : State} : Reachable s → step s = .next t → Reachable t

/-- The state after a command `op` issued in `s` has succeeded, but for the command's own results: acceptance
(43_control.md R180), then `succeed` (R181). -/
def succeeded (op : Byte) (s : State) : State :=
  { s with
    cmd := op, busy := false, done := true, err := false, errcode := 0x00, errsym := 0x00, erridx := 0x00, rdata := 0x00 }

/-- The state after a command `op` issued in `s` has failed, but for the emptied output: acceptance, then `raise`
(60_exceptions.md R201). -/
def failed (op code sym pos : Byte) (s : State) : State :=
  { s with
    cmd := op, busy := false, done := true, err := true, errcode := code, errsym := sym, erridx := pos, rdata := 0x00 }

/-- An event of the host's own (no completion, no reset, no command run to its end): what can fall between the acceptance
of a command and its completion (20_memory.md R66). -/
def isHostEvent : Event → Bool
  | .host _ | .idle => true
  | .command _ | .completion | .reset => false

/-- Events one after another, stopping at the first stop. -/
def runEvents : List Event → State → Result
  | [], s => .next s
  | e :: es, s =>
    match runEvent e s with
    | .next t => runEvents es t
    | .fault r => .fault r
    | .refused r => .refused r

/-- A state with what a host transaction may change while a command is in flight put aside: `ACCERR`, `rdata`, the agenda. -/
def commandView (s : State) : State := { s with accerr := false, rdata := 0x00, agenda := [] }

end Sys2Proof.Machine
end

