-- ==== Sys2Proof/Certificates/Slice0/Obligations.lean ====
section
/-! DEFINITION. The statements for the provers. `rdata` is the port's output (20_memory.md R62; log 4) and `agenda` the
model's own field (log 1): a statement that gives a next state as a record update says that every field not named in it is
unchanged. -/

open Sys2Proof Sys2Proof.Machine

/-! Encodings -/

/-- Decoding the bytes of any instruction gives that instruction back, every operand at every value. The byte layout of a
transaction word is the model's choice (log 5); the fields and codes are R91's and R93's. -/
def Obligations.DecodeOfEncode : Prop := ∀ i : Instr, decode (encode i) = .ok i

/-- The other direction. A word the decoder accepts is the word the encoder writes, but for a read's ignored `wdata`, which
the encoder writes as 0x00 (30_encoding.md R91). That `wdata` is the first of three bytes, and that nothing is lost because
bits above bit 18 are refused, is the model's choice (log 5, DESIGN CHOICE), no rule of the spec. -/
def Obligations.EncodeOfDecode : Prop :=
  ∀ bs i, decode bs = .ok i →
    encode i = bs ∨ ∃ a lo mid hi, i = .rd a ∧ bs = [lo, mid, hi] ∧ encode i = [0x00, mid, hi]

/-- The decoder accepts exactly the well-formed byte lists. What it refuses is the model's: bits above bit 18 and other
lengths by log 5 (DESIGN CHOICE), reserved command codes by log 12 (DEDUCED: they are no row of the opcode table). The engine
itself accepts a reserved code like any command (R94); ReservedCommandFails states that. -/
def Obligations.DecodeAcceptsExactlyWellFormed : Prop :=
  ∀ bs, (∃ i, decode bs = .ok i) ↔ wellFormed bs = true

/-- The fields of a transaction word, R91: bit 18 is `we`, bits 17:8 `addr`, bits 7:0 `wdata`. -/
def Obligations.TransactionWordFields : Prop :=
  ∀ w : XWord,
    (w.toNat / 2 ^ 18 = 1 →
      decodeXact w = .wr (BitVec.ofNat 10 (w.toNat / 2 ^ 8)) (BitVec.ofNat 8 w.toNat)) ∧
    (w.toNat / 2 ^ 18 = 0 → decodeXact w = .rd (BitVec.ofNat 10 (w.toNat / 2 ^ 8)))

/-- The command map R93: five codes, anything else reserved (R94). -/
def Obligations.CommandMap : Prop :=
  decodeCmd 0x00 = .ok .ack ∧ decodeCmd 0x01 = .ok .setalpha ∧ decodeCmd 0x02 = .ok .encode ∧
  decodeCmd 0x03 = .ok .decode ∧ decodeCmd 0x04 = .ok .clralpha ∧
  ∀ op : Byte, 5 ≤ op.toNat → decodeCmd op = .error (.reservedCommand op)

/-- Words written out from the spec: R91's three examples, the opcode table's `issued_as` words, vectors H1 to H17. That the
decoder rejects the reserved code 0x05 is log 12 (DEDUCED). -/
def Obligations.SpecWordsDecode : Prop :=
  decodeTableWord 24 0x40002 = some (.wr 0x000 0x02) ∧ decodeTableWord 24 0x00100 = some (.rd 0x001) ∧
  decodeTableWord 24 0x50030 = some (.wr 0x100 0x30) ∧ decodeTableWord 24 0x5FE7E = some (.wr 0x1FE 0x7E) ∧
  decodeTableWord 24 0x00F00 = some (.rd 0x00F) ∧ decodeTableWord 24 0x7FF01 = some (.wr 0x3FF 0x01) ∧
  decodeTableWord 8 0x00 = some .ack ∧ decodeTableWord 8 0x01 = some .setalpha ∧
  decodeTableWord 8 0x02 = some .encode ∧ decodeTableWord 8 0x03 = some .decode ∧
  decodeTableWord 8 0x04 = some .clralpha ∧ decodeTableWord 8 0x05 = none

/-! The step -/

/-- A step runs the decoded instruction, after the event has left the agenda; nothing else is added. The choice of the agent
by the agenda, and the whole command in one step, are the model's (logs 1 and 2). -/
def Obligations.StepRunsDecodedInstruction : Prop :=
  ∀ (s : State) (rest : List Event) (bs : List Byte) (i : Instr), decode bs = .ok i →
    ∃ e, eventOf bs = some e ∧ (s.agenda = e :: rest → step s = exec i { s with agenda := rest })

/-- The steps that run no instruction: the engine's completion, an edge without transaction, reset; and what happens when
the agenda is empty (logs 1, 3, 4 and 8). -/
def Obligations.StepOfOtherEvents : Prop :=
  ∀ (s : State) (rest : List Event),
    (s.agenda = .completion :: rest → s.busy = true → step s = completeCommand { s with agenda := rest }) ∧
    (s.agenda = .completion :: rest → s.busy = false → step s = .next { s with agenda := rest }) ∧
    (s.agenda = .idle :: rest → step s = .next { s with agenda := rest, rdata := 0x00 }) ∧
    (s.agenda = .reset :: rest → step s = .next { State.reset with agenda := rest }) ∧
    (s.agenda = [] → s.busy = true → step s = completeCommand s) ∧
    (s.agenda = [] → s.busy = false → step s = .next { s with rdata := 0x00 })

/-- A command run in one step (log 2) is the write of its code to `CMD` followed at once by the completion; ACK has no
completion. -/
def Obligations.CommandIsAcceptanceThenCompletion : Prop :=
  ∀ (s : State) (op : Byte), s.busy = false →
    (op ≠ 0x00 → runCommand op s = runEvents [.host (xwordOf true 0x000 op), .completion] s) ∧
    (op = 0x00 → runCommand op s = runEvents [.host (xwordOf true 0x000 op)] s)

/-- A command issued while another is in flight is a refused write (20_memory.md R66; that a command byte is such a write is
log 2). -/
def Obligations.CommandWhileBusyIsRefused : Prop :=
  ∀ (s : State) (op : Byte), s.busy = true → runCommand op s = .next { s with accerr := true, rdata := 0x00 }

/-! Reset -/

/-- The reset state, R241, every row of its table. -/
def Obligations.ResetValues : Prop :=
  let s := State.reset
  s.cmd = 0x00 ∧ s.busy = false ∧ s.done = false ∧ s.err = false ∧ s.avalid = false ∧ s.accerr = false ∧
  statusByte s = 0x00 ∧ s.ie = false ∧ s.strict16 = true ∧ ctrlByte s = 0x02 ∧
  s.errcode = 0x00 ∧ s.errsym = 0x00 ∧ s.erridx = 0x00 ∧ s.alen = 0x0000 ∧ s.blen = 0x00 ∧ s.slen = 0x00 ∧
  s.base = 0x00 ∧ Config.version = 0x01 ∧ irq s = false ∧
  (∀ i : Fin 16, s.bytes[i] = 0x00) ∧ (∀ i : Fin 128, s.syms[i] = 0x00) ∧ (∀ i : Fin 255, s.alpha[i] = 0x00)

/-- The reset state satisfies the invariants. -/
def Obligations.ResetSatisfiesInvariants : Prop := Inv State.reset

/-- An edge with `rst` = 1 gives the reset state whatever else is presented at it and whatever command is in flight (R240,
R242); the agenda is the model's (log 1). -/
def Obligations.ResetWinsOverEverything : Prop :=
  ∀ (p : Pins) (s : State), p.rst = true →
    clockEdge p s = .next { State.reset with agenda := s.agenda } ∧
    ∀ t, clockEdge p s = .next t → t.rdata = 0x00 ∧ irq t = false ∧ t.accerr = false ∧ t.busy = false ∧ t.done = false

/-- At an edge where a transaction and the completion of the command in flight meet, the transaction is first (R77). -/
def Obligations.SameEdgeIsTransactionThenCompletion : Prop :=
  ∀ (p : Pins) (s : State), p.rst = false → p.sel = true → p.completionDue = true → s.busy = true →
    clockEdge p s = runEvents [.host (xwordOf p.we p.addr p.wdata), .completion] s

/-! Invariants -/

/-- Every step keeps the invariants, from any state that has them. -/
def Obligations.StepKeepsInvariants : Prop := ∀ s t : State, Inv s → step s = .next t → Inv t

/-- R43: its six items hold in every reachable state. -/
def Obligations.ReachableStatesSatisfyR43 : Prop :=
  ∀ s : State, Reachable s →
    BusyIsQuiet s ∧ ErrIsDone s ∧ ErrHasCode s ∧ DetailHasCode s ∧ LockedIsAlphabet s ∧ BusyHasCommand s

/-- No step from a state with the invariants faults or is refused: the model's one stop (log 6) is never met. -/
def Obligations.StepNeverStops : Prop := ∀ s : State, Inv s → ∃ t, step s = .next t

/-- `STATUS` as read, bit by bit, and the values of bits 2:0 that occur (R95). -/
def Obligations.StatusByteIsLegal : Prop :=
  ∀ s : State, Inv s →
    (statusByte s).getLsbD 0 = s.busy ∧ (statusByte s).getLsbD 1 = s.done ∧ (statusByte s).getLsbD 2 = s.err ∧
    (statusByte s).getLsbD 3 = s.avalid ∧ (statusByte s).getLsbD 4 = s.accerr ∧ (statusByte s).toNat < 32 ∧
    ((statusByte s).toNat % 8 = 0 ∨ (statusByte s).toNat % 8 = 1 ∨ (statusByte s).toNat % 8 = 2 ∨
      (statusByte s).toNat % 8 = 6)

/-! Host transactions -/

/-- `WR(a, v)`, R63, line by line. -/
def Obligations.WriteTransaction : Prop :=
  ∀ (s : State) (a : Addr) (v : Byte),
    let n := a.toNat
    let out := fun t : State => exec (.wr a v) s = .next { t with rdata := 0x00 }
    let refused := out { s with accerr := true }
    (s.busy = true → refused) ∧
    (s.busy = false →
      (n = 0x000 → out
        { s with
          cmd := v, done := false, err := false, errcode := 0x00, errsym := 0x00, erridx := 0x00,
          busy := decide (v ≠ 0x00) }) ∧
      (n = 0x001 → v.getLsbD 4 = true → out { s with accerr := false }) ∧
      (n = 0x001 → v.getLsbD 4 = false → out s) ∧
      (n = 0x002 → out { s with ie := v.getLsbD 0, strict16 := v.getLsbD 1 }) ∧
      (n = 0x003 ∨ n = 0x004 ∨ n = 0x005 ∨ n = 0x00A ∨ n = 0x00F → refused) ∧
      (n = 0x006 → s.avalid = true → refused) ∧
      (n = 0x006 → s.avalid = false → out { s with alen := BitVec.ofNat 16 (s.alen.toNat / 256 * 256 + v.toNat) }) ∧
      (n = 0x007 → s.avalid = true → refused) ∧
      (n = 0x007 → s.avalid = false → out { s with alen := BitVec.ofNat 16 (v.toNat * 256 + s.alen.toNat % 256) }) ∧
      (n = 0x008 → out { s with blen := v }) ∧
      (n = 0x009 → out { s with slen := v }) ∧
      (∀ i : Fin 16, n = 0x040 + i → out { s with bytes := s.bytes.set i v }) ∧
      (∀ i : Fin 128, n = 0x080 + i → out { s with syms := s.syms.set i v }) ∧
      (∀ i : Fin 255, n = 0x100 + i → s.avalid = true → refused) ∧
      (∀ i : Fin 255, n = 0x100 + i → s.avalid = false → out { s with alpha := s.alpha.set i v }) ∧
      (0x00B ≤ n ∧ n ≤ 0x00E ∨ 0x010 ≤ n ∧ n ≤ 0x03F ∨ 0x050 ≤ n ∧ n ≤ 0x07F ∨ 0x1FF ≤ n → refused))

/-- `RD(a)`, R64, line by line: the value returned is the one on `rdata`, and a read that is not refused changes nothing
else. -/
def Obligations.ReadTransaction : Prop :=
  ∀ (s : State) (a : Addr),
    let n := a.toNat
    let returns := fun v : Byte => exec (.rd a) s = .next { s with rdata := v }
    let refused := exec (.rd a) s = .next { s with accerr := true, rdata := 0x00 }
    (n = 0x000 → returns s.cmd) ∧
    (n = 0x001 → returns (BitVec.ofNat 8
      (16 * s.accerr.toNat + 8 * s.avalid.toNat + 4 * s.err.toNat + 2 * s.done.toNat + s.busy.toNat))) ∧
    (n = 0x002 → returns (BitVec.ofNat 8 (2 * s.strict16.toNat + s.ie.toNat))) ∧
    (n = 0x00F → returns 0x01) ∧
    (s.busy = true → n ≠ 0x000 ∧ n ≠ 0x001 ∧ n ≠ 0x002 ∧ n ≠ 0x00F → refused) ∧
    (s.busy = false →
      (n = 0x003 → returns s.errcode) ∧
      (n = 0x004 → returns s.errsym) ∧
      (n = 0x005 → returns s.erridx) ∧
      (n = 0x006 → returns (BitVec.ofNat 8 s.alen.toNat)) ∧
      (n = 0x007 → returns (BitVec.ofNat 8 (s.alen.toNat / 256))) ∧
      (n = 0x008 → returns s.blen) ∧
      (n = 0x009 → returns s.slen) ∧
      (n = 0x00A → returns s.base) ∧
      (∀ i : Fin 16, n = 0x040 + i → returns s.bytes[i]) ∧
      (∀ i : Fin 128, n = 0x080 + i → returns s.syms[i]) ∧
      (∀ i : Fin 255, n = 0x100 + i → returns s.alpha[i]) ∧
      (0x00B ≤ n ∧ n ≤ 0x00E ∨ 0x010 ≤ n ∧ n ≤ 0x03F ∨ 0x050 ≤ n ∧ n ≤ 0x07F ∨ 0x1FF ≤ n → refused))

/-- R78: reserved addresses hold no state, whatever the state of the engine. -/
def Obligations.ReservedAddressesRefuse : Prop :=
  ∀ (s : State) (a : Addr) (v : Byte),
    0x00B ≤ a.toNat ∧ a.toNat ≤ 0x00E ∨ 0x010 ≤ a.toNat ∧ a.toNat ≤ 0x03F ∨ 0x050 ≤ a.toNat ∧ a.toNat ≤ 0x07F ∨
      a.toNat = 0x1FF ∨ 0x200 ≤ a.toNat →
    exec (.rd a) s = .next { s with accerr := true, rdata := 0x00 } ∧
    exec (.wr a v) s = .next { s with accerr := true, rdata := 0x00 }

/-- A write to a cell that stores what is written is read back, and every other address reads as before. The cells are
`BLEN`, `SLEN`, `BYTES`, `SYMS`, and, while no alphabet is locked, `ALEN` and `ALPHA` (R61, R63, R64). -/
def Obligations.WriteThenReadBack : Prop :=
  ∀ (s : State) (a : Addr) (v : Byte), s.busy = false →
    (0x008 ≤ a.toNat ∧ a.toNat ≤ 0x009 ∨ 0x040 ≤ a.toNat ∧ a.toNat ≤ 0x04F ∨ 0x080 ≤ a.toNat ∧ a.toNat ≤ 0x0FF ∨
      s.avalid = false ∧ (0x006 ≤ a.toNat ∧ a.toNat ≤ 0x007 ∨ 0x100 ≤ a.toNat ∧ a.toNat ≤ 0x1FE)) →
    ∃ t, exec (.wr a v) s = .next t ∧
      (∃ u, exec (.rd a) t = .next u ∧ u.rdata = v) ∧
      ∀ a', a' ≠ a → ∃ u u', exec (.rd a') s = .next u ∧ exec (.rd a') t = .next u' ∧ u'.rdata = u.rdata

/-- `ALEN = RD(0x007)*256 + RD(0x006)`, and the two bytes are written by two transactions in either order (R70). -/
def Obligations.AlenIsTwoBytes : Prop :=
  ∀ s : State, s.busy = false →
    (∃ hi lo, exec (.rd 0x007) s = .next hi ∧ exec (.rd 0x006) s = .next lo ∧
      s.alen.toNat = hi.rdata.toNat * 256 + lo.rdata.toNat) ∧
    (s.avalid = false → ∀ h l : Byte,
      (∃ t u, exec (.wr 0x006 l) s = .next t ∧ exec (.wr 0x007 h) t = .next u ∧ u.alen.toNat = h.toNat * 256 + l.toNat) ∧
      (∃ t u, exec (.wr 0x007 h) s = .next t ∧ exec (.wr 0x006 l) t = .next u ∧ u.alen.toNat = h.toNat * 256 + l.toNat))

/-- R66: while busy, a write or a read of anything but `CMD`, `STATUS`, `CTRL`, `VERSION` is refused, an allowed read
changes nothing; so after any host transactions nothing has changed but `ACCERR` (and what is on `rdata`). -/
def Obligations.LockOutWhileBusy : Prop :=
  ∀ s : State, s.busy = true →
    (∀ a v, exec (.wr a v) s = .next { s with accerr := true, rdata := 0x00 }) ∧
    (∀ a : Addr, a.toNat ≠ 0x000 ∧ a.toNat ≠ 0x001 ∧ a.toNat ≠ 0x002 ∧ a.toNat ≠ 0x00F →
      exec (.rd a) s = .next { s with accerr := true, rdata := 0x00 }) ∧
    (∀ a : Addr, a.toNat = 0x000 ∨ a.toNat = 0x001 ∨ a.toNat = 0x002 ∨ a.toNat = 0x00F →
      ∃ v, exec (.rd a) s = .next { s with rdata := v }) ∧
    ∀ es : List Event, (∀ e ∈ es, isHostEvent e = true) →
      ∃ accerr rdata, runEvents es s = .next { s with accerr := accerr, rdata := rdata }

/-- A command's outcome is a function of the state at its acceptance: whatever the host does while it is in flight, the
completion gives the same, but for `ACCERR` and `rdata` (R66, R181). -/
def Obligations.OutcomeIsFixedAtAcceptance : Prop :=
  ∀ (s : State) (es : List Event), s.busy = true → (∀ e ∈ es, isHostEvent e = true) →
    ∃ t, runEvents es s = .next t ∧
      ∀ u, complete s = .next u → ∃ w, complete t = .next w ∧ commandView w = commandView u

/-- While an alphabet is locked no step changes it, and only reset and CLRALPHA release it (R67, R76, R124). -/
def Obligations.LockedAlphabetIsImmutable : Prop :=
  ∀ s t : State, s.avalid = true → step s = .next t →
    (t.avalid = true → t.alpha = s.alpha ∧ t.alen = s.alen ∧ t.base = s.base) ∧
    (t.avalid = false → (∃ rest, s.agenda = .reset :: rest) ∨ t.cmd = 0x04 ∧ t.done = true)

/-- `ACCERR` is sticky: it falls only by reset and by a host write to `STATUS` with data bit 4 = 1 while idle (R33). -/
def Obligations.AccerrIsSticky : Prop :=
  ∀ s t : State, s.accerr = true → step s = .next t → t.accerr = false →
    (∃ rest, s.agenda = .reset :: rest) ∨
    s.busy = false ∧ ∃ (v : Byte) (rest : List Event), v.getLsbD 4 = true ∧
      s.agenda = .host (xwordOf true 0x001 v) :: rest

/-! The command protocol -/

/-- Acceptance, R180: every 8-bit value is accepted while idle; while busy the value is lost. -/
def Obligations.AcceptanceOfCommand : Prop :=
  ∀ (s : State) (v : Byte),
    (s.busy = false → exec (.wr 0x000 v) s = .next
      { s with
        cmd := v, done := false, err := false, errcode := 0x00, errsym := 0x00, erridx := 0x00,
        busy := decide (v ≠ 0x00), rdata := 0x00 }) ∧
    (s.busy = true → exec (.wr 0x000 v) s = .next { s with accerr := true, rdata := 0x00 })

/-- What every completion does, and the frame of all of them (R181, R200). The clause on `rdata` is the model's choice
(log 4, DESIGN CHOICE: a completion leaves the port's output as it is), no rule of the spec; every other clause is the
spec's, but for the model's own `agenda` (log 1). -/
def Obligations.CompletionFrame : Prop :=
  ∀ s t : State, s.busy = true → complete s = .next t →
    t.busy = false ∧ t.done = true ∧ t.cmd = s.cmd ∧ t.accerr = s.accerr ∧ t.ie = s.ie ∧ t.strict16 = s.strict16 ∧
    t.alpha = s.alpha ∧ t.alen = s.alen ∧ t.rdata = s.rdata ∧ t.agenda = s.agenda ∧
    (s.cmd ≠ 0x02 → t.syms = s.syms ∧ t.slen = s.slen) ∧ (s.cmd ≠ 0x03 → t.bytes = s.bytes ∧ t.blen = s.blen) ∧
    (s.cmd ≠ 0x01 ∧ s.cmd ≠ 0x04 → t.avalid = s.avalid ∧ t.base = s.base)

/-- ACK, R182. -/
def Obligations.AckCommand : Prop :=
  ∀ s : State,
    (s.busy = false → exec .ack s = .next
      { s with
        cmd := 0x00, done := false, err := false, errcode := 0x00, errsym := 0x00, erridx := 0x00, rdata := 0x00 } ∧
      ∀ t, exec .ack s = .next t → t.busy = false ∧ irq t = false) ∧
    (s.busy = true → exec .ack s = .next { s with accerr := true, rdata := 0x00 })

/-- Reserved command codes, R183: accepted, then failed with `E_BADCMD`. -/
def Obligations.ReservedCommandFails : Prop :=
  ∀ (s : State) (v : Byte), s.busy = false → 5 ≤ v.toNat →
    ∃ t, exec (.wr 0x000 v) s = .next t ∧ t.cmd = v ∧ t.busy = true ∧
      complete t = .next (failed v 0x09 0x00 0x00 s) ∧ runCommand v s = .next (failed v 0x09 0x00 0x00 s)

/-- A completion that fails changes only what R201 names, and the emptied output. -/
def Obligations.FailureIsPrecise : Prop :=
  ∀ s t : State, Inv s → s.busy = true → complete s = .next t → t.err = true →
    t.errcode ≠ 0x00 ∧ t.errcode.toNat ≤ 0x0A ∧
    (t.errsym ≠ 0x00 ∨ t.erridx ≠ 0x00 → t.errcode = 0x01 ∨ t.errcode = 0x03) ∧
    t = { s with
      errcode := t.errcode, errsym := t.errsym, erridx := t.erridx, busy := false, done := true, err := true,
      syms := if s.cmd = 0x02 then Vector.replicate 128 0x00 else s.syms,
      slen := if s.cmd = 0x02 then 0x00 else s.slen,
      bytes := if s.cmd = 0x03 then Vector.replicate 16 0x00 else s.bytes,
      blen := if s.cmd = 0x03 then 0x00 else s.blen }

/-- `DONE`, and with it a pending interrupt, rises only by a completion and falls only by an acceptance or reset (R30,
R217). -/
def Obligations.DoneRisesAndFalls : Prop :=
  ∀ s t : State, step s = .next t →
    (s.done = false → t.done = true →
      t.busy = false ∧ (s.busy = true ∨ ∃ op rest, op ≠ 0x00 ∧ s.agenda = .command op :: rest)) ∧
    (s.done = true → t.done = false →
      (∃ rest, s.agenda = .reset :: rest) ∨ (∃ op rest, s.agenda = .command op :: rest) ∨
      ∃ v rest, s.agenda = .host (xwordOf true 0x000 v) :: rest)

/-- The interrupt is a level (R217): a completion raises it when enabled, ACK lets it fall, `IE` masks and unmasks it. -/
def Obligations.InterruptIsALevel : Prop :=
  ∀ s : State,
    (∀ t, s.busy = true → complete s = .next t → irq t = s.ie) ∧
    (s.busy = false → ∃ t, exec .ack s = .next t ∧ irq t = false) ∧
    (∀ v, s.busy = false → ∃ t, exec (.wr 0x002 v) s = .next t ∧ irq t = (v.getLsbD 0 && s.done))

/-- A command in flight ends within the host's remaining transactions and one step more (R186, R253; log 3). -/
def Obligations.BusyAlwaysEnds : Prop :=
  ∀ s : State, Inv s → s.busy = true → (∀ e ∈ s.agenda, isHostEvent e = true) →
    ∃ t : State, Host.Core.run Sys2Proof.core (s.agenda.length + 1) s = .next t ∧
      t.busy = false ∧ t.done = true ∧ t.cmd = s.cmd ∧ t.agenda = []

/-! The alphabet commands -/

/-- `idx`, R121. -/
def Obligations.IdxFindsTheSymbol : Prop :=
  ∀ (A : List Byte) (c : Byte), A.Nodup →
    (∀ i, idx A c = some i ↔ A[i]? = some c) ∧ (idx A c = none ↔ c ∉ A)

/-- "The first duplicate symbol encountered", R126: the least `j` whose symbol equals an earlier entry. -/
def Obligations.FirstDuplicateIsTheLeast : Prop :=
  ∀ l : List Byte,
    (∀ c j, firstDup l = some (c, j) ↔ l[j]? = some c ∧ c ∈ l.take j ∧ (l.take j).Nodup) ∧
    (firstDup l = none ↔ l.Nodup)

/-- SETALPHA, R122: acceptance and completion, the four failures in their order, and success. -/
def Obligations.SetalphaCommand : Prop :=
  ∀ s : State, s.busy = false →
    (s.avalid = true → exec .setalpha s = .next (failed 0x01 0x08 0x00 0x00 s)) ∧
    (s.avalid = false → s.alen.toNat > 255 → exec .setalpha s = .next (failed 0x01 0x02 0x00 0x00 s)) ∧
    (s.avalid = false → s.alen.toNat < 2 → exec .setalpha s = .next (failed 0x01 0x06 0x00 0x00 s)) ∧
    (s.avalid = false → 2 ≤ s.alen.toNat → s.alen.toNat ≤ 255 → ∀ j : Fin 255, j.val < s.alen.toNat →
      (∃ i : Fin 255, i < j ∧ s.alpha[i] = s.alpha[j]) →
      (∀ j' : Fin 255, j' < j → ∀ i : Fin 255, i < j' → s.alpha[i] ≠ s.alpha[j']) →
      exec .setalpha s = .next (failed 0x01 0x01 s.alpha[j] (BitVec.ofNat 8 j) s)) ∧
    (s.avalid = false → 2 ≤ s.alen.toNat → s.alen.toNat ≤ 255 →
      (∀ i j : Fin 255, i < j → j.val < s.alen.toNat → s.alpha[i] ≠ s.alpha[j]) →
      exec .setalpha s = .next
        { succeeded 0x01 s with avalid := true, base := BitVec.ofNat 8 s.alen.toNat })

/-- CLRALPHA, R123: it succeeds whether or not an alphabet was locked, and ENCODE and DECODE then fail with `E_NOALPHA`. -/
def Obligations.ClralphaCommand : Prop :=
  ∀ s : State, s.busy = false →
    ∃ t, exec .clralpha s = .next t ∧ t = { succeeded 0x04 s with avalid := false, base := 0x00 } ∧
      (∃ u, exec .encode t = .next u ∧ u.err = true ∧ u.errcode = 0x07) ∧
      ∃ u, exec .decode t = .next u ∧ u.err = true ∧ u.errcode = 0x07

/-! The mathematical functions -/

/-- `lead`, `val`, `digits`, R8. -/
def Obligations.LeadValDigits : Prop :=
  (∀ (s : List Byte) (e : Byte),
    lead s e ≤ s.length ∧ (∀ i < lead s e, s[i]? = some e) ∧ (lead s e < s.length → s[lead s e]? ≠ some e)) ∧
  (∀ B, val [] B = 0) ∧ (∀ d x B, val (d ++ [x]) B = val d B * B + x) ∧
  ∀ V B, 2 ≤ B →
    (∀ x ∈ digits V B, x < B) ∧ val (digits V B) B = V ∧ (digits V B = [] ↔ V = 0) ∧ (digits V B).head? ≠ some 0 ∧
    ∀ d : List Nat, (∀ x ∈ d, x < B) → val d B = V → d.head? ≠ some 0 → d = digits V B

/-- The byte order, R68: big-endian. -/
def Obligations.ByteOrderIsBigEndian : Prop :=
  ∀ b : List Byte,
    val (b.map BitVec.toNat) 256 = ∑ i : Fin b.length, (b[i]).toNat * 256 ^ (b.length - 1 - i.val)

/-- `enc`, R140, in terms of any minimal base-B digit sequence of the value. -/
def Obligations.EncIsZeroSymbolsThenMinimalDigits : Prop :=
  ∀ (A b : List Byte) (d : List Nat), isAlphabet A = true →
    (∀ x ∈ d, x < A.length) → d.head? ≠ some 0 →
    val d A.length = val ((b.drop (lead b 0x00)).map BitVec.toNat) 256 →
    enc A b = List.replicate (lead b 0x00) (A.getD 0 0x00) ++ d.map fun i => A.getD i 0x00

/-- `dec`, R160, in terms of the digit values of the string and any minimal byte sequence of their value. -/
def Obligations.DecIsZeroBytesThenMinimalBytes : Prop :=
  ∀ (A s y : List Byte) (d : List Nat), isAlphabet A = true →
    d.map (fun i => A[i]?) = (s.drop (lead s (A.getD 0 0x00))).map some →
    y.head? ≠ some 0x00 → val (y.map BitVec.toNat) 256 = val d A.length →
    dec A s = List.replicate (lead s (A.getD 0 0x00)) 0x00 ++ y

/-- The length of `enc`, R142. -/
def Obligations.EncLengthBound : Prop :=
  ∀ A b : List Byte, isAlphabet A = true →
    (enc A b).length ≤ lead b 0x00 + 8 * (b.length - lead b 0x00) ∧
    (enc A b).length ≤ 8 * b.length ∧
    (b.length ≤ 16 → (enc A b).length ≤ 128) ∧
    lead b 0x00 ≤ (enc A b).length ∧ (lead b 0x00 < (enc A b).length ↔ lead b 0x00 < b.length) ∧
    (b ≠ [] → (enc A b).length = 8 * b.length → A.length = 2 ∧ lead b 0x00 = 0 ∧ 0x80 ≤ (b.getD 0 0x00).toNat)

/-- Empty and non-empty, R143. -/
def Obligations.EncOfEmptyOnly : Prop :=
  ∀ A b : List Byte, isAlphabet A = true → (enc A b = [] ↔ b = [])

/-- The length is not fixed: base 4 and sixteen bytes, R144. -/
def Obligations.BaseFourLengths : Prop :=
  ∀ A b : List Byte, isAlphabet A = true → A.length = 4 → b.length = 16 →
    ((enc A b).length = 64 ↔ 0x40 ≤ (b.getD 0 0x00).toNat) ∧
    ((enc A b).length = 63 ↔ 0x10 ≤ (b.getD 0 0x00).toNat ∧ (b.getD 0 0x00).toNat ≤ 0x3F) ∧
    ((enc A b).length = 62 ↔ 0x04 ≤ (b.getD 0 0x00).toNat ∧ (b.getD 0 0x00).toNat ≤ 0x0F) ∧
    (0x01 ≤ (b.getD 0 0x00).toNat ∧ (b.getD 0 0x00).toNat ≤ 0x03 → (enc A b).length = 61)

/-- The leading zero symbols of a result count the leading zero bytes, and `enc(A, .)` is injective (R147). -/
def Obligations.EncKeepsLeadAndIsInjective : Prop :=
  ∀ A : List Byte, isAlphabet A = true →
    (∀ b, lead (enc A b) (A.getD 0 0x00) = lead b 0x00) ∧ ∀ b b', enc A b = enc A b' → b = b'

/-- The round-trip law, R162: of the functions, and of the hardware. -/
def Obligations.RoundTripLaw : Prop :=
  (∀ A b : List Byte, isAlphabet A = true → dec A (enc A b) = b) ∧
  ∀ s : State, s.busy = false → s.avalid = true → LockedIsAlphabet s → s.blen.toNat ≤ 16 →
    (s.strict16 = true → s.blen.toNat = 16) →
    ∃ t u, exec .encode s = .next t ∧ t.err = false ∧ exec .decode t = .next u ∧ u.err = false ∧ u.blen = s.blen ∧
      ∀ i : Fin 16, u.bytes[i] = if i.val < s.blen.toNat then s.bytes[i] else 0x00

/-- The converse round trip, R163. -/
def Obligations.ConverseRoundTrip : Prop :=
  ∀ A : List Byte, isAlphabet A = true →
    (∀ s : List Byte, (∀ c ∈ s, c ∈ A) → enc A (dec A s) = s) ∧
    ∀ s s' : List Byte, (∀ c ∈ s, c ∈ A) → (∀ c ∈ s', c ∈ A) → dec A s = dec A s' → s = s'

/-- A string of more than 128 symbols never decodes to 16 bytes, R167. -/
def Obligations.LongStringsNeverFit : Prop :=
  ∀ A s : List Byte, isAlphabet A = true → (∀ c ∈ s, c ∈ A) → 128 < s.length → 17 ≤ (dec A s).length

/-- The length of `dec`, R168; a string shorter than 16 symbols always fails under `STRICT16` = 1. -/
def Obligations.DecLengthBounds : Prop :=
  (∀ A s : List Byte, isAlphabet A = true → (∀ c ∈ s, c ∈ A) →
    lead s (A.getD 0 0x00) ≤ (dec A s).length ∧ (dec A s).length ≤ s.length ∧
    ((dec A s).length = lead s (A.getD 0 0x00) ↔ lead s (A.getD 0 0x00) = s.length)) ∧
  ∀ s : State, s.busy = false → LockedIsAlphabet s → s.strict16 = true → s.slen.toNat < 16 →
    ∃ t, exec .decode s = .next t ∧ t.err = true

/-- One long division of R145 is exact, and its parts have the widths R146 states. -/
def Obligations.LongDivisionIsExact : Prop :=
  ∀ (B r : Nat) (W : List Nat), 2 ≤ B → B ≤ 255 → r < B → (∀ w ∈ W, w ≤ 255) →
    (longDiv B r W).1.length = W.length ∧ (∀ q ∈ (longDiv B r W).1, q ≤ 255) ∧ (longDiv B r W).2 < B ∧
    val (longDiv B r W).1 256 * B + (longDiv B r W).2 = r * 256 ^ W.length + val W 256

/-- One multiply-accumulate pass of R165 is exact, and its parts have the widths R166 states. -/
def Obligations.MultiplyAccumulateIsExact : Prop :=
  ∀ (B c : Nat) (W : List Nat), 2 ≤ B → B ≤ 255 → c < B → (∀ w ∈ W, w ≤ 255) →
    (mulAdd B W c).1.length = W.length ∧ (∀ w ∈ (mulAdd B W c).1, w ≤ 255) ∧ (mulAdd B W c).2 ≤ 254 ∧
    (mulAdd B W c).2 * 256 ^ W.length + val (mulAdd B W c).1 256 = val W 256 * B + c

/-- The byte-wise routine of R145 computes `enc`. -/
def Obligations.EncReferenceComputesEnc : Prop :=
  ∀ A b : List Byte, isAlphabet A = true → encReference A b = enc A b

/-- The byte-wise routine of R165 computes `dec`, and reports a result of more than 16 bytes instead of wrapping. -/
def Obligations.DecReferenceComputesDec : Prop :=
  ∀ A s : List Byte, isAlphabet A = true → (∀ c ∈ s, c ∈ A) →
    decReference A s = if (dec A s).length ≤ 16 then some (dec A s) else none

/-! ENCODE and DECODE -/

/-- ENCODE, R141: the failures in their order, with the emptied output; the result and the zero tail. -/
def Obligations.EncodeCommand : Prop :=
  ∀ s : State, s.busy = false → LockedIsAlphabet s →
    let r := enc (alphabet s) (byteOperand s)
    (s.avalid = false → exec .encode s = .next
      { failed 0x02 0x07 0x00 0x00 s with syms := Vector.replicate 128 0x00, slen := 0x00 }) ∧
    (s.avalid = true → s.blen.toNat > 16 ∨ s.strict16 = true ∧ s.blen.toNat ≠ 16 → exec .encode s = .next
      { failed 0x02 0x04 0x00 0x00 s with syms := Vector.replicate 128 0x00, slen := 0x00 }) ∧
    (s.avalid = true → s.blen.toNat ≤ 16 → (s.strict16 = true → s.blen.toNat = 16) →
      ∃ t, exec .encode s = .next t ∧ t = { succeeded 0x02 s with syms := t.syms, slen := t.slen } ∧
        t.slen.toNat = r.length ∧ ∀ i : Fin 128, t.syms[i] = if i.val < r.length then r.getD i 0x00 else 0x00)

/-- DECODE, R161: the failures in their order, with the emptied output; the result and the zero tail. -/
def Obligations.DecodeCommand : Prop :=
  ∀ s : State, s.busy = false → LockedIsAlphabet s →
    let y := dec (alphabet s) (symOperand s)
    let fails := fun code sym pos : Byte => exec .decode s = .next
      { failed 0x03 code sym pos s with bytes := Vector.replicate 16 0x00, blen := 0x00 }
    (s.avalid = false → fails 0x07 0x00 0x00) ∧
    (s.avalid = true → s.slen.toNat > 128 → fails 0x0A 0x00 0x00) ∧
    (s.avalid = true → s.slen.toNat ≤ 128 →
      (∀ k : Fin 128, k.val < s.slen.toNat → s.syms[k] ∉ alphabet s →
        (∀ k' : Fin 128, k' < k → s.syms[k'] ∈ alphabet s) → fails 0x03 s.syms[k] (BitVec.ofNat 8 k)) ∧
      ((∀ k : Fin 128, k.val < s.slen.toNat → s.syms[k] ∈ alphabet s) →
        (y.length > 16 ∨ s.strict16 = true ∧ y.length ≠ 16 → fails 0x05 0x00 0x00) ∧
        (y.length ≤ 16 → (s.strict16 = true → y.length = 16) →
          ∃ t, exec .decode s = .next t ∧ t = { succeeded 0x03 s with bytes := t.bytes, blen := t.blen } ∧
            t.blen.toNat = y.length ∧ ∀ i : Fin 16, t.bytes[i] = if i.val < y.length then y.getD i 0x00 else 0x00)))

/-- No silent truncation, R164: a DECODE that succeeds delivers bytes of exactly the string's value. -/
def Obligations.DecodeNeverTruncates : Prop :=
  ∀ s t : State, s.busy = false → exec .decode s = .next t → t.err = false →
    byteOperand t = dec (alphabet s) (symOperand s) ∧
    val ((byteOperand t).map BitVec.toNat) 256 =
      val ((symOperand s).map fun c => (idx (alphabet s) c).getD 0) s.base.toNat

/-- Each conversion overwrites its whole output: the old contents of the output buffer and its length make no difference
(R249). -/
def Obligations.OutputIsOverwritten : Prop :=
  ∀ s : State, s.busy = false →
    (∀ x n, exec .encode { s with syms := x, slen := n } = exec .encode s) ∧
    (∀ x n, exec .decode { s with bytes := x, blen := n } = exec .decode s)

/-- Stale contents beyond the written length are harmless (R245, R23): entries beyond the length in force make no
difference to any command, and are kept by it. -/
def Obligations.StaleContentsAreHarmless : Prop :=
  ∀ s t : State, s.busy = false →
    (∀ b : Vector Byte 16, (∀ i : Fin 16, i.val < s.blen.toNat → b[i] = s.bytes[i]) → exec .encode s = .next t →
      exec .encode { s with bytes := b } = .next { t with bytes := b }) ∧
    (∀ x : Vector Byte 128, (∀ i : Fin 128, i.val < s.slen.toNat → x[i] = s.syms[i]) → exec .decode s = .next t →
      exec .decode { s with syms := x } = .next { t with syms := x }) ∧
    (∀ a : Vector Byte 255, (∀ i : Fin 255, i.val < s.alen.toNat → a[i] = s.alpha[i]) → exec .setalpha s = .next t →
      exec .setalpha { s with alpha := a } = .next { t with alpha := a }) ∧
    (∀ a : Vector Byte 255, (∀ i : Fin 255, i.val < s.base.toNat → a[i] = s.alpha[i]) →
      (exec .encode s = .next t → exec .encode { s with alpha := a } = .next { t with alpha := a }) ∧
      (exec .decode s = .next t → exec .decode { s with alpha := a } = .next { t with alpha := a }))
end

