-- ==== Sys2Proof/Laws/State.lean ====
section
/-! SUPPORT. One lemma per field per shared update of the state, so that no proof unfolds a record update. -/

namespace Sys2Proof.Machine

@[simp] theorem refuse_bytes (s : State) : (refuse s).bytes = s.bytes := rfl
@[simp] theorem refuse_syms (s : State) : (refuse s).syms = s.syms := rfl
@[simp] theorem refuse_alpha (s : State) : (refuse s).alpha = s.alpha := rfl
@[simp] theorem refuse_alen (s : State) : (refuse s).alen = s.alen := rfl
@[simp] theorem refuse_blen (s : State) : (refuse s).blen = s.blen := rfl
@[simp] theorem refuse_slen (s : State) : (refuse s).slen = s.slen := rfl
@[simp] theorem refuse_base (s : State) : (refuse s).base = s.base := rfl
@[simp] theorem refuse_cmd (s : State) : (refuse s).cmd = s.cmd := rfl
@[simp] theorem refuse_busy (s : State) : (refuse s).busy = s.busy := rfl
@[simp] theorem refuse_done (s : State) : (refuse s).done = s.done := rfl
@[simp] theorem refuse_err (s : State) : (refuse s).err = s.err := rfl
@[simp] theorem refuse_avalid (s : State) : (refuse s).avalid = s.avalid := rfl
@[simp] theorem refuse_accerr (s : State) : (refuse s).accerr = true := rfl
@[simp] theorem refuse_ie (s : State) : (refuse s).ie = s.ie := rfl
@[simp] theorem refuse_strict16 (s : State) : (refuse s).strict16 = s.strict16 := rfl
@[simp] theorem refuse_errcode (s : State) : (refuse s).errcode = s.errcode := rfl
@[simp] theorem refuse_errsym (s : State) : (refuse s).errsym = s.errsym := rfl
@[simp] theorem refuse_erridx (s : State) : (refuse s).erridx = s.erridx := rfl
@[simp] theorem refuse_rdata (s : State) : (refuse s).rdata = s.rdata := rfl
@[simp] theorem refuse_agenda (s : State) : (refuse s).agenda = s.agenda := rfl

@[simp] theorem accept_bytes (v : Byte) (s : State) : (accept v s).bytes = s.bytes := rfl
@[simp] theorem accept_syms (v : Byte) (s : State) : (accept v s).syms = s.syms := rfl
@[simp] theorem accept_alpha (v : Byte) (s : State) : (accept v s).alpha = s.alpha := rfl
@[simp] theorem accept_alen (v : Byte) (s : State) : (accept v s).alen = s.alen := rfl
@[simp] theorem accept_blen (v : Byte) (s : State) : (accept v s).blen = s.blen := rfl
@[simp] theorem accept_slen (v : Byte) (s : State) : (accept v s).slen = s.slen := rfl
@[simp] theorem accept_base (v : Byte) (s : State) : (accept v s).base = s.base := rfl
@[simp] theorem accept_cmd (v : Byte) (s : State) : (accept v s).cmd = v := rfl
@[simp] theorem accept_busy (v : Byte) (s : State) : (accept v s).busy = (s.busy || decide (v ≠ 0x00)) := rfl
@[simp] theorem accept_done (v : Byte) (s : State) : (accept v s).done = false := rfl
@[simp] theorem accept_err (v : Byte) (s : State) : (accept v s).err = false := rfl
@[simp] theorem accept_avalid (v : Byte) (s : State) : (accept v s).avalid = s.avalid := rfl
@[simp] theorem accept_accerr (v : Byte) (s : State) : (accept v s).accerr = s.accerr := rfl
@[simp] theorem accept_ie (v : Byte) (s : State) : (accept v s).ie = s.ie := rfl
@[simp] theorem accept_strict16 (v : Byte) (s : State) : (accept v s).strict16 = s.strict16 := rfl
@[simp] theorem accept_errcode (v : Byte) (s : State) : (accept v s).errcode = 0x00 := rfl
@[simp] theorem accept_errsym (v : Byte) (s : State) : (accept v s).errsym = 0x00 := rfl
@[simp] theorem accept_erridx (v : Byte) (s : State) : (accept v s).erridx = 0x00 := rfl
@[simp] theorem accept_rdata (v : Byte) (s : State) : (accept v s).rdata = s.rdata := rfl
@[simp] theorem accept_agenda (v : Byte) (s : State) : (accept v s).agenda = s.agenda := rfl

@[simp] theorem succeed_bytes (s : State) : (succeed s).bytes = s.bytes := rfl
@[simp] theorem succeed_syms (s : State) : (succeed s).syms = s.syms := rfl
@[simp] theorem succeed_alpha (s : State) : (succeed s).alpha = s.alpha := rfl
@[simp] theorem succeed_alen (s : State) : (succeed s).alen = s.alen := rfl
@[simp] theorem succeed_blen (s : State) : (succeed s).blen = s.blen := rfl
@[simp] theorem succeed_slen (s : State) : (succeed s).slen = s.slen := rfl
@[simp] theorem succeed_base (s : State) : (succeed s).base = s.base := rfl
@[simp] theorem succeed_cmd (s : State) : (succeed s).cmd = s.cmd := rfl
@[simp] theorem succeed_busy (s : State) : (succeed s).busy = false := rfl
@[simp] theorem succeed_done (s : State) : (succeed s).done = true := rfl
@[simp] theorem succeed_err (s : State) : (succeed s).err = s.err := rfl
@[simp] theorem succeed_avalid (s : State) : (succeed s).avalid = s.avalid := rfl
@[simp] theorem succeed_accerr (s : State) : (succeed s).accerr = s.accerr := rfl
@[simp] theorem succeed_ie (s : State) : (succeed s).ie = s.ie := rfl
@[simp] theorem succeed_strict16 (s : State) : (succeed s).strict16 = s.strict16 := rfl
@[simp] theorem succeed_errcode (s : State) : (succeed s).errcode = s.errcode := rfl
@[simp] theorem succeed_errsym (s : State) : (succeed s).errsym = s.errsym := rfl
@[simp] theorem succeed_erridx (s : State) : (succeed s).erridx = s.erridx := rfl
@[simp] theorem succeed_rdata (s : State) : (succeed s).rdata = s.rdata := rfl
@[simp] theorem succeed_agenda (s : State) : (succeed s).agenda = s.agenda := rfl

@[simp] theorem raise_bytes (e : ErrCode) (sym pos : Byte) (s : State) : (raise e sym pos s).bytes = s.bytes := rfl
@[simp] theorem raise_syms (e : ErrCode) (sym pos : Byte) (s : State) : (raise e sym pos s).syms = s.syms := rfl
@[simp] theorem raise_alpha (e : ErrCode) (sym pos : Byte) (s : State) : (raise e sym pos s).alpha = s.alpha := rfl
@[simp] theorem raise_alen (e : ErrCode) (sym pos : Byte) (s : State) : (raise e sym pos s).alen = s.alen := rfl
@[simp] theorem raise_blen (e : ErrCode) (sym pos : Byte) (s : State) : (raise e sym pos s).blen = s.blen := rfl
@[simp] theorem raise_slen (e : ErrCode) (sym pos : Byte) (s : State) : (raise e sym pos s).slen = s.slen := rfl
@[simp] theorem raise_base (e : ErrCode) (sym pos : Byte) (s : State) : (raise e sym pos s).base = s.base := rfl
@[simp] theorem raise_cmd (e : ErrCode) (sym pos : Byte) (s : State) : (raise e sym pos s).cmd = s.cmd := rfl
@[simp] theorem raise_busy (e : ErrCode) (sym pos : Byte) (s : State) : (raise e sym pos s).busy = false := rfl
@[simp] theorem raise_done (e : ErrCode) (sym pos : Byte) (s : State) : (raise e sym pos s).done = true := rfl
@[simp] theorem raise_err (e : ErrCode) (sym pos : Byte) (s : State) : (raise e sym pos s).err = true := rfl
@[simp] theorem raise_avalid (e : ErrCode) (sym pos : Byte) (s : State) : (raise e sym pos s).avalid = s.avalid := rfl
@[simp] theorem raise_accerr (e : ErrCode) (sym pos : Byte) (s : State) : (raise e sym pos s).accerr = s.accerr := rfl
@[simp] theorem raise_ie (e : ErrCode) (sym pos : Byte) (s : State) : (raise e sym pos s).ie = s.ie := rfl
@[simp] theorem raise_strict16 (e : ErrCode) (sym pos : Byte) (s : State) : (raise e sym pos s).strict16 = s.strict16 := rfl
@[simp] theorem raise_errcode (e : ErrCode) (sym pos : Byte) (s : State) : (raise e sym pos s).errcode = errValue e := rfl
@[simp] theorem raise_errsym (e : ErrCode) (sym pos : Byte) (s : State) : (raise e sym pos s).errsym = sym := rfl
@[simp] theorem raise_erridx (e : ErrCode) (sym pos : Byte) (s : State) : (raise e sym pos s).erridx = pos := rfl
@[simp] theorem raise_rdata (e : ErrCode) (sym pos : Byte) (s : State) : (raise e sym pos s).rdata = s.rdata := rfl
@[simp] theorem raise_agenda (e : ErrCode) (sym pos : Byte) (s : State) : (raise e sym pos s).agenda = s.agenda := rfl

@[simp] theorem idleEdge_bytes (s : State) : (idleEdge s).bytes = s.bytes := rfl
@[simp] theorem idleEdge_syms (s : State) : (idleEdge s).syms = s.syms := rfl
@[simp] theorem idleEdge_alpha (s : State) : (idleEdge s).alpha = s.alpha := rfl
@[simp] theorem idleEdge_alen (s : State) : (idleEdge s).alen = s.alen := rfl
@[simp] theorem idleEdge_blen (s : State) : (idleEdge s).blen = s.blen := rfl
@[simp] theorem idleEdge_slen (s : State) : (idleEdge s).slen = s.slen := rfl
@[simp] theorem idleEdge_base (s : State) : (idleEdge s).base = s.base := rfl
@[simp] theorem idleEdge_cmd (s : State) : (idleEdge s).cmd = s.cmd := rfl
@[simp] theorem idleEdge_busy (s : State) : (idleEdge s).busy = s.busy := rfl
@[simp] theorem idleEdge_done (s : State) : (idleEdge s).done = s.done := rfl
@[simp] theorem idleEdge_err (s : State) : (idleEdge s).err = s.err := rfl
@[simp] theorem idleEdge_avalid (s : State) : (idleEdge s).avalid = s.avalid := rfl
@[simp] theorem idleEdge_accerr (s : State) : (idleEdge s).accerr = s.accerr := rfl
@[simp] theorem idleEdge_ie (s : State) : (idleEdge s).ie = s.ie := rfl
@[simp] theorem idleEdge_strict16 (s : State) : (idleEdge s).strict16 = s.strict16 := rfl
@[simp] theorem idleEdge_errcode (s : State) : (idleEdge s).errcode = s.errcode := rfl
@[simp] theorem idleEdge_errsym (s : State) : (idleEdge s).errsym = s.errsym := rfl
@[simp] theorem idleEdge_erridx (s : State) : (idleEdge s).erridx = s.erridx := rfl
@[simp] theorem idleEdge_rdata (s : State) : (idleEdge s).rdata = 0x00 := rfl
@[simp] theorem idleEdge_agenda (s : State) : (idleEdge s).agenda = s.agenda := rfl

/-- Reset keeps the agenda and nothing else. -/
@[simp] theorem resetEdge_agenda (s : State) : (resetEdge s).agenda = s.agenda := rfl

/-- The operands a command reads depend on their own fields only. -/
@[simp] theorem alphabet_refuse (s : State) : alphabet (refuse s) = alphabet s := rfl
@[simp] theorem alphabet_accept (v : Byte) (s : State) : alphabet (accept v s) = alphabet s := rfl
@[simp] theorem byteOperand_accept (v : Byte) (s : State) : byteOperand (accept v s) = byteOperand s := rfl
@[simp] theorem symOperand_accept (v : Byte) (s : State) : symOperand (accept v s) = symOperand s := rfl
@[simp] theorem candidate_accept (v : Byte) (s : State) : candidate (accept v s) = candidate s := rfl

end Sys2Proof.Machine
end

