-- ==== Sys2Proof/Laws/Ops.lean ====
section
/-! SUPPORT. What each shared operation can do, said once. -/

namespace Sys2Proof.Machine

/-! Host transactions -/

/-- While busy a write only sets `ACCERR`. -/
theorem hostWrite_busy {s : State} (h : s.busy = true) (a : Addr) (v : Byte) :
    hostWrite a v s = { s with accerr := true, rdata := 0x00 } := by
  simp [hostWrite, h, refuse]

/-- While idle a write is the write of the register the address names. -/
theorem hostWrite_idle {s : State} (h : s.busy = false) (a : Addr) (v : Byte) :
    hostWrite a v s = writeReg (regOf a) v { s with rdata := 0x00 } := by
  simp [hostWrite, h]

/-- Everything a write of a register can do: accept a command, be refused, or change one operand register, one control
field or `ACCERR`. -/
theorem writeReg_cases (r : Reg) (v : Byte) (s : State) :
    (r = .cmd ∧ writeReg r v s = accept v s) ∨ writeReg r v s = refuse s ∨
    (r = .status ∧ v.getLsbD 4 = true ∧ writeReg r v s = { s with accerr := false }) ∨
    (∃ ie strict blen slen bytes syms, writeReg r v s =
      { s with ie := ie, strict16 := strict, blen := blen, slen := slen, bytes := bytes, syms := syms }) ∨
    (s.avalid = false ∧ ∃ alen alpha, writeReg r v s = { s with alen := alen, alpha := alpha }) := by
  cases r with
  | cmd => exact .inl ⟨rfl, rfl⟩
  | status =>
    by_cases h : v.getLsbD 4 = true
    · exact .inr (.inr (.inl ⟨rfl, h, by simp only [writeReg, h, if_true]⟩))
    · exact .inr (.inr (.inr (.inl ⟨s.ie, s.strict16, s.blen, s.slen, s.bytes, s.syms, by
        simp only [writeReg, h]; rfl⟩)))
  | ctrl => exact .inr (.inr (.inr (.inl ⟨v.getLsbD 0, v.getLsbD 1, s.blen, s.slen, s.bytes, s.syms, rfl⟩)))
  | blen => exact .inr (.inr (.inr (.inl ⟨s.ie, s.strict16, v, s.slen, s.bytes, s.syms, rfl⟩)))
  | slen => exact .inr (.inr (.inr (.inl ⟨s.ie, s.strict16, s.blen, v, s.bytes, s.syms, rfl⟩)))
  | bytes i => exact .inr (.inr (.inr (.inl ⟨s.ie, s.strict16, s.blen, s.slen, s.bytes.set i v, s.syms, rfl⟩)))
  | syms i => exact .inr (.inr (.inr (.inl ⟨s.ie, s.strict16, s.blen, s.slen, s.bytes, s.syms.set i v, rfl⟩)))
  | alenLo | alenHi | alpha i =>
    by_cases h : s.avalid = true
    · exact .inr (.inl (by simp only [writeReg, h, if_true]))
    · exact .inr (.inr (.inr (.inr ⟨by simpa using h, _, _, by simp only [writeReg, h]; rfl⟩)))
  | errcode | errsym | erridx | base | version | reserved => exact .inr (.inl rfl)

/-- Everything a read can do: return a value and change nothing else, or be refused. -/
theorem hostRead_cases (a : Addr) (s : State) :
    (∃ v, readReg (regOf a) s = some v ∧ (s.busy = true → readableWhileBusy (regOf a) = true) ∧
      hostRead a s = { s with rdata := v }) ∨
    hostRead a s = { s with accerr := true, rdata := 0x00 } := by
  unfold hostRead
  split
  · exact .inr rfl
  · rename_i h
    cases hr : readReg (regOf a) s with
    | none => exact .inr rfl
    | some v => exact .inl ⟨v, rfl, by simpa using h, rfl⟩

/-! The address map -/

theorem regOf_cmd : regOf 0x000 = .cmd := rfl
theorem regOf_status : regOf 0x001 = .status := rfl
theorem regOf_ctrl : regOf 0x002 = .ctrl := rfl

/-- `BYTES[i]` is at 0x040 + i. -/
theorem regOf_bytes {a : Addr} (i : Fin 16) (h : a.toNat = 0x040 + i.val) : regOf a = .bytes i := by
  rw [regOf, dif_pos (by omega)]
  exact congrArg _ (Fin.ext (by show a.toNat - 0x040 = i.val; omega))

/-- `SYMS[i]` is at 0x080 + i. -/
theorem regOf_syms {a : Addr} (i : Fin 128) (h : a.toNat = 0x080 + i.val) : regOf a = .syms i := by
  rw [regOf, dif_neg (by omega), dif_pos (by omega)]
  exact congrArg _ (Fin.ext (by show a.toNat - 0x080 = i.val; omega))

/-- `ALPHA[i]` is at 0x100 + i. -/
theorem regOf_alpha {a : Addr} (i : Fin 255) (h : a.toNat = 0x100 + i.val) : regOf a = .alpha i := by
  rw [regOf, dif_neg (by omega), dif_neg (by omega), dif_pos (by omega)]
  exact congrArg _ (Fin.ext (by show a.toNat - 0x100 = i.val; omega))

/-- Below 0x040 stand the single registers. -/
theorem regOf_scalar {a : Addr} (h : a.toNat < 0x040) : regOf a = scalarOf a.toNat := by
  rw [regOf, dif_neg (by omega), dif_neg (by omega), dif_neg (by omega)]

/-- The addresses R61 does not list are reserved. -/
theorem regOf_reserved {a : Addr}
    (h : 0x00B ≤ a.toNat ∧ a.toNat ≤ 0x00E ∨ 0x010 ≤ a.toNat ∧ a.toNat ≤ 0x03F ∨ 0x050 ≤ a.toNat ∧ a.toNat ≤ 0x07F ∨
      0x1FF ≤ a.toNat) : regOf a = .reserved := by
  rw [regOf, dif_neg (by omega), dif_neg (by omega), dif_neg (by omega), scalarOf.eq_def]
  split <;> first | rfl | omega

/-! Commands -/

/-- A command issued while busy is a refused write. -/
theorem issue_busy {s : State} (h : s.busy = true) (op : Byte) (fin : State → Result) :
    issue op fin s = .next { s with accerr := true, rdata := 0x00 } := by
  simp [issue, h, hostWrite_busy]

/-- A command issued while idle is its completion after acceptance. -/
theorem issue_idle {s : State} (h : s.busy = false) (op : Byte) (fin : State → Result) :
    issue op fin s = fin (accept op { s with rdata := 0x00 }) := by
  rw [issue, if_neg (by simp [h]), hostWrite_idle h, regOf_cmd]
  rfl

/-- Everything SETALPHA's completion can do: fail without a symbol, name the first duplicate, or lock a table without
repeats. -/
theorem setalphaComplete_cases (s : State) :
    (∃ e, (e = .locked ∧ s.avalid = true ∨ s.avalid = false ∧ e = .tooLong ∧ s.alen.toNat > 255 ∨
        s.avalid = false ∧ e = .tooShort ∧ s.alen.toNat < 2) ∧
      setalphaComplete s = .next (raise e 0x00 0x00 s)) ∨
    (∃ c j, s.avalid = false ∧ 2 ≤ s.alen.toNat ∧ s.alen.toNat ≤ 255 ∧ firstDup (candidate s) = some (c, j) ∧
      setalphaComplete s = .next (raise .ambiguous c (BitVec.ofNat 8 j) s)) ∨
    (s.avalid = false ∧ 2 ≤ s.alen.toNat ∧ s.alen.toNat ≤ 255 ∧ firstDup (candidate s) = none ∧
      setalphaComplete s = .next (succeed { s with avalid := true, base := BitVec.ofNat 8 s.alen.toNat })) := by
  unfold setalphaComplete
  split
  · exact .inl ⟨_, .inl ⟨rfl, ‹_›⟩, rfl⟩
  · rename_i hv
    have hv : s.avalid = false := by simpa using hv
    dsimp only
    split
    · exact .inl ⟨_, .inr (.inl ⟨hv, rfl, ‹_›⟩), rfl⟩
    · split
      · exact .inl ⟨_, .inr (.inr ⟨hv, rfl, ‹_›⟩), rfl⟩
      · split
        · exact .inr (.inl ⟨_, _, hv, by omega, by omega, ‹_›, rfl⟩)
        · exact .inr (.inr ⟨hv, by omega, by omega, ‹_›, rfl⟩)

/-- Everything ENCODE's completion can do: fail with an empty output, stop outside the domain of `enc`, or write `enc`. -/
theorem encodeComplete_cases (s : State) :
    (s.avalid = false ∧ encodeComplete s = .next (encFail .noAlpha s)) ∨
    (s.avalid = true ∧ (s.blen.toNat > 16 ∨ s.strict16 = true ∧ s.blen.toNat ≠ 16) ∧
      encodeComplete s = .next (encFail .byteLenEnc s)) ∨
    (s.avalid = true ∧ s.blen.toNat ≤ 16 ∧ (s.strict16 = true → s.blen.toNat = 16) ∧
      isAlphabet (alphabet s) = false ∧ encodeComplete s = .fault .notAnAlphabet) ∨
    (s.avalid = true ∧ s.blen.toNat ≤ 16 ∧ (s.strict16 = true → s.blen.toNat = 16) ∧
      isAlphabet (alphabet s) = true ∧
      encodeComplete s = .next (succeed
        { s with
          syms := fill 128 (enc (alphabet s) (byteOperand s))
          slen := BitVec.ofNat 8 (enc (alphabet s) (byteOperand s)).length })) := by
  unfold encodeComplete
  dsimp only
  split
  · exact .inl ⟨by simp_all, rfl⟩
  · have hv : s.avalid = true := by simp_all
    split
    · exact .inr (.inl ⟨hv, .inl ‹_›, rfl⟩)
    · split
      · exact .inr (.inl ⟨hv, .inr (by simp_all), rfl⟩)
      · have hs : s.strict16 = true → s.blen.toNat = 16 := by simp_all
        split
        · exact .inr (.inr (.inl ⟨hv, by omega, hs, by simp_all, rfl⟩))
        · exact .inr (.inr (.inr ⟨hv, by omega, hs, by simp_all, rfl⟩))

/-- Everything DECODE's completion can do: fail with an empty output, stop outside the domain of `dec`, or write `dec`. -/
theorem decodeComplete_cases (s : State) :
    (s.avalid = false ∧ decodeComplete s = .next (decFail .noAlpha 0x00 0x00 s)) ∨
    (s.avalid = true ∧ s.slen.toNat > 128 ∧ decodeComplete s = .next (decFail .symLen 0x00 0x00 s)) ∨
    (s.avalid = true ∧ s.slen.toNat ≤ 128 ∧ isAlphabet (alphabet s) = false ∧
      decodeComplete s = .fault .notAnAlphabet) ∨
    (∃ c k, s.avalid = true ∧ s.slen.toNat ≤ 128 ∧ isAlphabet (alphabet s) = true ∧
      firstOutside (alphabet s) (symOperand s) = some (c, k) ∧
      decodeComplete s = .next (decFail .nonBase c (BitVec.ofNat 8 k) s)) ∨
    (s.avalid = true ∧ s.slen.toNat ≤ 128 ∧ isAlphabet (alphabet s) = true ∧
      firstOutside (alphabet s) (symOperand s) = none ∧
      ((dec (alphabet s) (symOperand s)).length > 16 ∨
        s.strict16 = true ∧ (dec (alphabet s) (symOperand s)).length ≠ 16) ∧
      decodeComplete s = .next (decFail .byteLenDec 0x00 0x00 s)) ∨
    (s.avalid = true ∧ s.slen.toNat ≤ 128 ∧ isAlphabet (alphabet s) = true ∧
      firstOutside (alphabet s) (symOperand s) = none ∧ (dec (alphabet s) (symOperand s)).length ≤ 16 ∧
      (s.strict16 = true → (dec (alphabet s) (symOperand s)).length = 16) ∧
      decodeComplete s = .next (succeed
        { s with
          bytes := fill 16 (dec (alphabet s) (symOperand s))
          blen := BitVec.ofNat 8 (dec (alphabet s) (symOperand s)).length })) := by
  unfold decodeComplete
  dsimp only
  split
  · exact .inl ⟨by simp_all, rfl⟩
  · have hv : s.avalid = true := by simp_all
    split
    · exact .inr (.inl ⟨hv, ‹_›, rfl⟩)
    · have hl : s.slen.toNat ≤ 128 := by omega
      split
      · exact .inr (.inr (.inl ⟨hv, hl, by simp_all, rfl⟩))
      · have ha : isAlphabet (alphabet s) = true := by simp_all
        split
        · exact .inr (.inr (.inr (.inl ⟨_, _, hv, hl, ha, ‹_›, rfl⟩)))
        · split
          · exact .inr (.inr (.inr (.inr (.inl ⟨hv, hl, ha, ‹_›, .inl ‹_›, rfl⟩))))
          · split
            · exact .inr (.inr (.inr (.inr (.inl ⟨hv, hl, ha, ‹_›, .inr (by simp_all), rfl⟩))))
            · exact .inr (.inr (.inr (.inr (.inr ⟨hv, hl, ha, ‹_›, by omega, by simp_all, rfl⟩))))

/-- The engine's step is one of the four completions or that of a reserved code. -/
theorem completeCommand_cases (s : State) :
    (s.cmd = 0x01 ∧ completeCommand s = setalphaComplete s) ∨ (s.cmd = 0x02 ∧ completeCommand s = encodeComplete s) ∨
    (s.cmd = 0x03 ∧ completeCommand s = decodeComplete s) ∨ (s.cmd = 0x04 ∧ completeCommand s = clralphaComplete s) ∨
    (s.cmd ≠ 0x01 ∧ s.cmd ≠ 0x02 ∧ s.cmd ≠ 0x03 ∧ s.cmd ≠ 0x04 ∧ completeCommand s = reservedComplete s) := by
  by_cases h1 : s.cmd = 0x01
  · exact .inl ⟨h1, by rw [completeCommand, h1]; rfl⟩
  by_cases h2 : s.cmd = 0x02
  · exact .inr (.inl ⟨h2, by rw [completeCommand, h2]; rfl⟩)
  by_cases h3 : s.cmd = 0x03
  · exact .inr (.inr (.inl ⟨h3, by rw [completeCommand, h3]; rfl⟩))
  by_cases h4 : s.cmd = 0x04
  · exact .inr (.inr (.inr (.inl ⟨h4, by rw [completeCommand, h4]; rfl⟩)))
  refine .inr (.inr (.inr (.inr ⟨h1, h2, h3, h4, ?_⟩)))
  have ne : ∀ k : Nat, k < 256 → s.cmd ≠ BitVec.ofNat 8 k → s.cmd.toNat ≠ k := by
    intro k hk h h'
    exact h (BitVec.eq_of_toNat_eq (by simp [h', Nat.mod_eq_of_lt hk]))
  have e1 := ne 1 (by omega) h1
  have e2 := ne 2 (by omega) h2
  have e3 := ne 3 (by omega) h3
  have e4 := ne 4 (by omega) h4
  unfold completeCommand
  split <;> first | contradiction | rfl

/-- A completion that is not enabled changes nothing. -/
theorem complete_idle {s : State} (h : s.busy = false) : complete s = .next s := by simp [complete, h]

/-- An enabled completion is that of the command in `CMD`. -/
theorem complete_busy {s : State} (h : s.busy = true) : complete s = completeCommand s := by simp [complete, h]

/-- The cells of a filled register file. -/
theorem fill_getElem (n : Nat) (l : List Byte) (i : Nat) (h : i < n) : (fill n l)[i] = l.getD i 0x00 := by
  simp [fill]

/-- An emptied register file holds 0x00 everywhere. -/
theorem fill_nil (n : Nat) : fill n [] = Vector.replicate n 0x00 := by
  ext i h
  simp [fill]

/-! The step -/

/-- The next event of the agenda takes place. -/
theorem step_cons {s : State} {e : Event} {rest : List Event} (h : s.agenda = e :: rest) :
    step s = runEvent e { s with agenda := rest } := by simp [step, h]

/-- A write word is the word of its fields. -/
theorem xwordOf_fields {w : XWord} (h : w.getLsbD 18 = true) :
    xwordOf true (w.extractLsb' 8 10) (w.extractLsb' 0 8) = w := by
  apply BitVec.eq_of_getLsbD_eq
  intro i hi
  simp only [xwordOf, BitVec.getLsbD_append, BitVec.getLsbD_extractLsb', BitVec.getLsbD_ofBool]
  split
  · simp [*]
  · split
    · rw [show 8 + (i - 8) = i by omega]
      simp [show i - 8 < 10 by omega]
    · obtain rfl : i = 18 := by omega
      simp [h]

/-- Everything `runEvent` can be. -/
theorem runEvent_cases (e : Event) (s : State) :
    (∃ a v, e = .host (xwordOf true a v) ∧ runEvent e s = .next (hostWrite a v s)) ∨
    (∃ w a, e = .host w ∧ runEvent e s = .next (hostRead a s)) ∨
    (∃ op, e = .command op ∧ runEvent e s = runCommand op s) ∨
    (e = .completion ∧ runEvent e s = complete s) ∨ (e = .idle ∧ runEvent e s = .next (idleEdge s)) ∨
    (e = .reset ∧ runEvent e s = .next (resetEdge s)) := by
  cases e with
  | host w =>
    by_cases h : w.getLsbD 18 = true
    · exact .inl ⟨w.extractLsb' 8 10, w.extractLsb' 0 8, by rw [xwordOf_fields h], by
        rw [runEvent, decodeXact, if_pos h]; rfl⟩
    · exact .inr (.inl ⟨w, w.extractLsb' 8 10, rfl, by
        rw [runEvent, decodeXact, if_neg h]; rfl⟩)
  | command op => exact .inr (.inr (.inl ⟨op, rfl, rfl⟩))
  | completion => exact .inr (.inr (.inr (.inl ⟨rfl, rfl⟩)))
  | idle => exact .inr (.inr (.inr (.inr (.inl ⟨rfl, rfl⟩))))
  | reset => exact .inr (.inr (.inr (.inr (.inr ⟨rfl, rfl⟩))))

end Sys2Proof.Machine
end

