-- ==== Sys2Proof/Laws/PerInstr.lean ====
section
/-! SUPPORT. What is said of every instruction as syntax: its encoding has the length of its format and passes the check on
raw bytes, one lemma per constructor. -/

namespace Sys2Proof.Laws.Encoding

/-- The encoder writes bytes of the instruction's format that are well formed (30_encoding.md R91 to R93). -/
def Statement (i : Instr) : Prop := (encode i).length = i.format.bytes ∧ wellFormed (encode i) = true

/-- The three bytes of a transaction word pass the check. -/
theorem wellFormed_bytesOfXWord (w : XWord) : wellFormed (bytesOfXWord w) = true := by
  have h := (w.extractLsb' 16 3).isLt
  simp only [wellFormed, bytesOfXWord, BitVec.toNat_setWidth, decide_eq_true_eq]
  omega

theorem wr (a : Addr) (v : Byte) : Statement (.wr a v) := ⟨rfl, wellFormed_bytesOfXWord _⟩
theorem rd (a : Addr) : Statement (.rd a) := ⟨rfl, wellFormed_bytesOfXWord _⟩
theorem ack : Statement .ack := ⟨rfl, rfl⟩
theorem setalpha : Statement .setalpha := ⟨rfl, rfl⟩
theorem encode : Statement .encode := ⟨rfl, rfl⟩
theorem decode : Statement .decode := ⟨rfl, rfl⟩
theorem clralpha : Statement .clralpha := ⟨rfl, rfl⟩

end Sys2Proof.Laws.Encoding
end

