-- ==== Sys2Proof/Laws/Radix.lean ====
section
/-! SUPPORT. The small laws of `lead`, `val`, `digits`, `idx` and of the alphabet check, so that no proof unfolds their
recursion. -/

namespace Sys2Proof.Machine

/-! `lead` -/

@[simp] theorem lead_nil (e : Byte) : lead [] e = 0 := rfl

@[simp] theorem lead_cons_self (e : Byte) (s : List Byte) : lead (e :: s) e = lead s e + 1 := by simp [lead]

theorem lead_cons_ne {x e : Byte} (h : x ≠ e) (s : List Byte) : lead (x :: s) e = 0 := by simp [lead, h]

theorem lead_le_length (s : List Byte) (e : Byte) : lead s e ≤ s.length := by
  induction s with
  | nil => simp
  | cons x xs ih =>
    by_cases h : x = e
    · subst h
      simpa using ih
    · simp [lead_cons_ne h]

/-- A sequence is its leading `e`s and the rest. -/
theorem replicate_lead_append_drop (s : List Byte) (e : Byte) :
    List.replicate (lead s e) e ++ s.drop (lead s e) = s := by
  induction s with
  | nil => simp
  | cons x xs ih =>
    by_cases h : x = e
    · subst h
      simp [List.replicate_succ, ih]
    · simp [lead_cons_ne h]

/-- The rest does not begin with `e`. -/
theorem head?_drop_lead (s : List Byte) (e : Byte) : (s.drop (lead s e)).head? ≠ some e := by
  induction s with
  | nil => simp
  | cons x xs ih =>
    by_cases h : x = e
    · subst h
      simpa using ih
    · simpa [lead_cons_ne h] using h

theorem lead_replicate_append (k : Nat) (e : Byte) (s : List Byte) :
    lead (List.replicate k e ++ s) e = k + lead s e := by
  induction k with
  | zero => simp
  | succ k ih =>
    simp only [List.replicate_succ, List.cons_append, lead_cons_self, ih]
    omega

/-! `val` -/

@[simp] theorem val_nil (B : Nat) : val [] B = 0 := rfl

theorem val_concat (d : List Nat) (x B : Nat) : val (d ++ [x]) B = val d B * B + x := by simp [val]

/-- The value of two sequences after one another. -/
theorem val_append (d e : List Nat) (B : Nat) : val (d ++ e) B = val d B * B ^ e.length + val e B := by
  induction e using List.reverseRecOn with
  | nil => simp
  | append_singleton e x ih =>
    rw [← List.append_assoc, val_concat, ih, val_concat, List.length_append, List.length_singleton, pow_succ]
    ring

theorem val_cons (x : Nat) (d : List Nat) (B : Nat) : val (x :: d) B = x * B ^ d.length + val d B := by
  have h := val_append [x] d B
  simpa [val] using h

/-- Digits below the base give a value below the base's power. -/
theorem val_lt_pow {B : Nat} {d : List Nat} (h : ∀ x ∈ d, x < B) : val d B < B ^ d.length := by
  induction d with
  | nil => simp
  | cons x d ih =>
    have hx := h x (by simp)
    have hd := ih fun y hy => h y (by simp [hy])
    rw [val_cons, List.length_cons, pow_succ]
    have : x * B ^ d.length + B ^ d.length ≤ B ^ d.length * B := by
      calc x * B ^ d.length + B ^ d.length = (x + 1) * B ^ d.length := by ring
        _ ≤ B * B ^ d.length := Nat.mul_le_mul_right _ hx
        _ = B ^ d.length * B := Nat.mul_comm _ _
    omega

/-! `digits` -/

theorem digitsFuel_acc (k V B : Nat) (acc : List Nat) : digitsFuel k V B acc = digitsFuel k V B [] ++ acc := by
  induction k generalizing V acc with
  | zero => simp [digitsFuel]
  | succ k ih =>
    simp only [digitsFuel]
    split
    · simp
    · rw [ih (V / B) (V % B :: acc), ih (V / B) [V % B]]
      simp

/-- More fuel than a number's bits changes nothing. -/
theorem digitsFuel_enough {B : Nat} (hB : 2 ≤ B) (k j V : Nat) (hk : V < 2 ^ k) (hj : V < 2 ^ j) :
    digitsFuel k V B [] = digitsFuel j V B [] := by
  have half : ∀ n V, V < 2 ^ (n + 1) → V / B < 2 ^ n := by
    intro n V h
    rw [pow_succ] at h
    exact Nat.lt_of_le_of_lt (Nat.div_le_div_left hB (by omega)) (Nat.div_lt_of_lt_mul (by omega))
  induction k generalizing V j with
  | zero =>
    obtain rfl : V = 0 := by simpa using hk
    cases j <;> simp [digitsFuel]
  | succ k ih =>
    cases j with
    | zero =>
      obtain rfl : V = 0 := by simpa using hj
      simp [digitsFuel]
    | succ j =>
      simp only [digitsFuel]
      split
      · rfl
      · rw [digitsFuel_acc, digitsFuel_acc j, ih j (V / B) (half k V hk) (half j V hj)]

@[simp] theorem digits_zero (B : Nat) : digits 0 B = [] := by simp [digits, digitsFuel]

/-- One division: the digits of the quotient, then the remainder (41_encode.md R146). -/
theorem digits_step {V B : Nat} (hB : 2 ≤ B) (hV : V ≠ 0) : digits V B = digits (V / B) B ++ [V % B] := by
  have hlt : V < 2 ^ (V.log2 + 1) := Nat.lt_log2_self
  conv => lhs; rw [digits, digitsFuel, if_neg hV, digitsFuel_acc]
  rw [digits, digitsFuel_enough hB V.log2 ((V / B).log2 + 1) (V / B) ?_ Nat.lt_log2_self]
  rw [pow_succ] at hlt
  exact Nat.lt_of_le_of_lt (Nat.div_le_div_left hB (by omega)) (Nat.div_lt_of_lt_mul (by omega))

/-! Alphabets -/

/-- The scan finds nothing exactly when nothing repeats and nothing has been seen before. -/
theorem firstDupFrom_eq_none (j : Nat) (seen l : List Byte) :
    firstDupFrom j seen l = none ↔ l.Nodup ∧ ∀ c ∈ l, c ∉ seen := by
  induction l generalizing j seen with
  | nil => simp [firstDupFrom]
  | cons c rest ih =>
    simp only [firstDupFrom, List.contains_iff_mem]
    split
    · simp_all
    · rw [ih]
      simp only [List.nodup_cons, List.mem_cons, forall_eq_or_imp]
      constructor
      · rintro ⟨hn, hs⟩
        exact ⟨⟨fun hc => hs c hc (.inl rfl), hn⟩, by assumption, fun a ha h => hs a ha (.inr h)⟩
      · rintro ⟨⟨hc, hn⟩, -, hs⟩
        refine ⟨hn, fun a ha h => ?_⟩
        rcases h with rfl | h
        · exact hc ha
        · exact hs a ha h

/-- The check of `ENCODE` and `DECODE` is R120. -/
theorem isAlphabet_iff (A : List Byte) : isAlphabet A = true ↔ 2 ≤ A.length ∧ A.length ≤ 255 ∧ A.Nodup := by
  have h := firstDupFrom_eq_none 0 [] A
  simp only [isAlphabet, firstDup, Bool.and_eq_true, decide_eq_true_eq, Option.isNone_iff_eq_none, h]
  simp [and_assoc]

end Sys2Proof.Machine
end

