-- ==== Sys2Proof/Laws/Safety.lean ====
section
/-! SUPPORT. The shared operations keep the invariants, once for each, and what the invariants give a conversion. -/

namespace Sys2Proof.Machine

/-- The invariants say nothing of the data buffers, their lengths, the control bits, `ACCERR`, `rdata` and the agenda. -/
theorem inv_with_buffers {s : State} (h : Inv s) (b : Vector Byte 16) (x : Vector Byte 128) (n l r : Byte)
    (ie strict accerr : Bool) (es : List Event) :
    Inv { s with
      bytes := b, syms := x, blen := n, slen := l, ie := ie, strict16 := strict, accerr := accerr, rdata := r,
      agenda := es } := h

/-- Acceptance keeps them. -/
theorem inv_accept {s : State} (h : Inv s) (hb : s.busy = false) (v : Byte) : Inv (accept v s) := by
  obtain ⟨-, -, -, -, hl, -, -⟩ := h
  exact ⟨by simp [BusyIsQuiet], by simp [ErrIsDone], by simp [ErrHasCode], by simp [DetailHasCode], hl,
    by simp [BusyHasCommand, hb], by simp [CodeIsKnown]⟩

/-- A write of a register while idle keeps them. -/
theorem inv_writeReg {s : State} (h : Inv s) (hb : s.busy = false) (r : Reg) (v : Byte) : Inv (writeReg r v s) := by
  rcases writeReg_cases r v s with ⟨-, e⟩ | e | ⟨-, -, e⟩ | ⟨_, _, _, _, _, _, e⟩ | ⟨hv, _, _, e⟩ <;> rw [e]
  · exact inv_accept h hb v
  · exact h
  · exact h
  · exact h
  · obtain ⟨h1, h2, h3, h4, h5, h6, h7⟩ := h
    exact ⟨h1, h2, h3, h4, ⟨h5.1, by simp [hv]⟩, h6, h7⟩

/-- A failure keeps them, if it names a symbol only with the two codes that have one. -/
theorem inv_raise {s : State} (h : Inv s) (e : ErrCode) (sym pos : Byte)
    (hd : (sym = 0x00 ∧ pos = 0x00) ∨ e = .ambiguous ∨ e = .nonBase) : Inv (raise e sym pos s) := by
  obtain ⟨-, -, -, -, hl, -, -⟩ := h
  refine ⟨by simp [BusyIsQuiet], by simp [ErrIsDone], ?_, ?_, hl, by simp [BusyHasCommand], ?_⟩
  · cases e <;> simp [ErrHasCode, errValue]
  · rcases hd with ⟨rfl, rfl⟩ | rfl | rfl <;> simp [DetailHasCode]
  · cases e <;> simp [CodeIsKnown, errValue]

/-- A success keeps them, once acceptance has cleared the last failure. -/
theorem inv_succeed {s : State} (h : Inv s) (he : s.err = false) : Inv (succeed s) := by
  obtain ⟨-, -, h3, h4, h5, -, h7⟩ := h
  exact ⟨by simp [BusyIsQuiet], by simp [ErrIsDone, he], h3, h4, h5, by simp [BusyHasCommand], h7⟩

/-- The alphabet in force has `BASE` symbols. -/
theorem length_alphabet (s : State) : (alphabet s).length = s.base.toNat := by
  have := s.base.isLt
  simp [alphabet]
  omega

/-- A locked alphabet is an alphabet, so no conversion stops (log 6). -/
theorem isAlphabet_of_locked {s : State} (h : LockedIsAlphabet s) (hv : s.avalid = true) :
    isAlphabet (alphabet s) = true := by
  obtain ⟨h2, -, hn⟩ := h.2 hv
  have := s.base.isLt
  rw [isAlphabet_iff, length_alphabet]
  exact ⟨h2, by omega, hn⟩

end Sys2Proof.Machine
end

