-- ==== Sys2Proof/Tests/Slice0.lean ====
section
/-! SUPPORT. The model's own tests. Every expected result is the spec's: the words of 30_encoding.md R91 and of
opcode_table.json, and the vectors of 95_test_vectors.md, named by their ids. A `witness_` theorem shows states and operands
that meet the hypotheses of the obligation it names, at the boundaries of its clauses. -/

-- The tests are checked one after another: in parallel each waits in a thread of its own.
set_option Elab.async false

namespace Sys2Proof.Tests

open Sys2Proof.Machine

/-- The next state of a result has the property. -/
def ends (r : Result) (p : State → Bool) : Bool :=
  match r with
  | .next t => p t
  | .fault _ => false
  | .refused _ => false

/-- `s` with the table `A` and its length, not locked. -/
def loaded (A : List Byte) (s : State) : State := { s with alpha := fill 255 A, alen := BitVec.ofNat 16 A.length }

/-- `s` with the alphabet `A` locked. -/
def locked (A : List Byte) (s : State) : State :=
  { loaded A s with base := BitVec.ofNat 8 A.length, avalid := true }

/-- The alphabet `a b c d` locked, `STRICT16` = 0. -/
def abcd : State := locked [0x61, 0x62, 0x63, 0x64] { State.reset with strict16 := false }

/-- The state of H21: `BYTES[0]` = 0x1B, `BLEN` = 1, ENCODE accepted and not completed. -/
def busyEnc : State := { abcd with bytes := fill 16 [0x1B], blen := 0x01, busy := true, cmd := 0x02 }

/-- The state before K1, with `abcd`: a failed DECODE, not acknowledged. -/
def failedDec : State :=
  { abcd with cmd := 0x03, done := true, err := true, errcode := 0x03, errsym := 0x21, slen := 0x05, syms := fill 128 [0x21] }

/-- A SETALPHA that succeeded. -/
def doneSet : State := { abcd with done := true, cmd := 0x01 }

/-- An ENCODE of 17 bytes in flight. -/
def encTooLong : State := { busyEnc with blen := 17 }

/-- A DECODE of 129 symbols in flight. -/
def decTooLong : State := { busyEnc with cmd := 0x03, slen := 0x81 }

/-- A reserved code in flight. -/
def badCommand : State := { busyEnc with cmd := 0x05 }

/-- A command in flight, a refused write and an edge without transaction to come. -/
def busyWithAgenda : State := { busyEnc with agenda := [.host 0x44077, .idle] }

/-- Sixteen bytes framed. -/
def uuidState : State := { abcd with blen := 16, strict16 := true, bytes := fill 16 [0x2A, 0x21] }

/-- Tables of two entries, with and without a repeat. -/
def repeated : State := loaded [0x61, 0x61] State.reset
def distinct : State := loaded [0x30, 0x31] State.reset

/-- One symbol outside `abcd`, and one inside it with `STRICT16` = 1. -/
def outsideDec : State := { abcd with slen := 1, syms := fill 128 [0x78] }
def shortDec : State := { abcd with slen := 1, syms := fill 128 [0x61], strict16 := true }

/-- One byte and one symbol in force. -/
def oneEach : State := { abcd with blen := 1, bytes := fill 16 [0x1B], slen := 1, syms := fill 128 [0x62] }

/-- The length of `enc` in base 4 of sixteen bytes, the first given and the others zero. -/
def baseFourLength (x : Byte) : Nat := (enc [0x61, 0x62, 0x63, 0x64] (x :: List.replicate 15 0x00)).length

/-! The check on raw bytes -/

theorem test_wellFormed_refuses_reserved_command : wellFormed [0x05] = false := by decide
theorem test_wellFormed_refuses_bit_19 : wellFormed [0x00, 0x00, 0x08] = false := by decide
theorem test_wellFormed_refuses_lengths :
    wellFormed [] = false ∧ wellFormed [0x00, 0x00] = false ∧ wellFormed [0, 0, 0, 0] = false := by decide
theorem test_wellFormed_accepts : wellFormed [0x04] = true ∧ wellFormed [0xFF, 0xFF, 0x07] = true := by decide

/-! Decoding: words written out from R91 to R93 -/

theorem test_decode_wr : decode [0b00000010, 0b00000000, 0b00000100] = .ok (.wr 0x000 0x02) := rfl
theorem test_decode_wr_alpha0 : decode [0x30, 0x00, 0x05] = .ok (.wr 0x100 0x30) := rfl
theorem test_decode_rd_ignores_wdata : decode [0b10100101, 0b00000001, 0b00000000] = .ok (.rd 0x001) := rfl
theorem test_decode_ack : decode [0b00000000] = .ok .ack := rfl
theorem test_decode_setalpha : decode [0b00000001] = .ok .setalpha := rfl
theorem test_decode_encode : decode [0b00000010] = .ok .encode := rfl
theorem test_decode_decode : decode [0b00000011] = .ok .decode := rfl
theorem test_decode_clralpha : decode [0b00000100] = .ok .clralpha := rfl
/-- K5: no bit of the code is ignored. -/
theorem test_decode_0x81_is_not_setalpha : decode [0x81] = .error (.reservedCommand 0x81) := rfl

/-! The mathematical functions, vectors of section 2.0 -/

theorem test_digits_258_base_4 : digits 258 4 = [1, 0, 0, 0, 2] := by decide
theorem test_digits_254_255_base_255 : digits 254 255 = [254] ∧ digits 255 255 = [1, 0] := by decide
theorem test_digits_end_of_range : digits (2 ^ 128 - 1) 64 = 3 :: List.replicate 21 63 := by decide +kernel
theorem test_lead : lead [0, 0, 5, 0] 0 = 2 ∧ lead [] 0 = 0 ∧ lead [0, 0, 0] 0 = 3 := by decide
theorem test_val : val [0x01, 0x02] 256 = 258 ∧ val [] 256 = 0 := by decide

/-! One step of each instruction -/

/-- H17: the last table entry. -/
theorem test_wr_alpha_254 : ends (exec (.wr 0x1FE 0x7E) State.reset) (fun t => t.alpha[254] = 0x7E && !t.accerr) := by decide +kernel
/-- H18: a locked table. -/
theorem test_wr_alpha_locked :
    ends (exec (.wr 0x100 0x7A) abcd) (fun t => statusByte t = 0x18 && t.alpha[0] = 0x61) := by decide +kernel
/-- H20: reading a locked table. -/
theorem test_rd_alpha_locked : ends (exec (.rd 0x101) abcd) (fun t => t.rdata = 0x62 && statusByte t = 0x08) := by decide +kernel
/-- H25: a refused read while busy. -/
theorem test_rd_bytes_busy : ends (exec (.rd 0x040) busyEnc) (fun t => t.rdata = 0x00 && statusByte t = 0x19) := by decide +kernel
/-- K1. -/
theorem test_ack_clears : ends (exec .ack failedDec)
    (fun t => statusByte t = 0x08 && t.errcode = 0x00 && t.errsym = 0x00 && t.slen = 0x05) := by decide +kernel
/-- H30: ACK cannot cancel a command. -/
theorem test_ack_busy : ends (exec .ack busyEnc) (fun t => statusByte t = 0x19 && t.cmd = 0x02) := by decide +kernel
/-- A2: `abcba` names `b` at index 3, not `a`. -/
theorem test_setalpha_abcba : ends (exec .setalpha (loaded [0x61, 0x62, 0x63, 0x62, 0x61] State.reset))
    (fun t => statusByte t = 0x06 && t.errcode = 0x01 && t.errsym = 0x62 && t.erridx = 0x03 && t.base = 0x00) := by decide +kernel
/-- A18: a repeat beyond `ALEN` is not examined. -/
theorem test_setalpha_success :
    ends (exec .setalpha { loaded [0x61, 0x62, 0x63, 0x61, 0x62] State.reset with alen := 3 })
      (fun t => statusByte t = 0x0A && t.base = 0x03) := by decide +kernel
/-- E27: `00 00 01 02` in `abcd` is `aabaaac`. -/
theorem test_encode_leading_zeros : ends (exec .encode { abcd with bytes := fill 16 [0x00, 0x00, 0x01, 0x02], blen := 4 })
    (fun t => t.slen = 7 && t.syms.toList.take 8 == [0x61, 0x61, 0x62, 0x61, 0x61, 0x61, 0x63, 0x00] &&
      statusByte t = 0x0A) := by decide +kernel
/-- E45: 17 bytes. -/
theorem test_encode_too_long : ends (exec .encode { abcd with blen := 17, slen := 3, syms := fill 128 [0x61, 0x62, 0x63] })
    (fun t => statusByte t = 0x0E && t.errcode = 0x04 && t.slen = 0 && t.syms[0] = 0x00) := by decide +kernel
/-- DEC22: `aabaaac` read backwards. -/
theorem test_decode_leading_zeros :
    ends (exec .decode { abcd with syms := fill 128 [0x61, 0x61, 0x62, 0x61, 0x61, 0x61, 0x63], slen := 7 })
      (fun t => t.blen = 4 && t.bytes.toList.take 5 == [0x00, 0x00, 0x01, 0x02, 0x00] && statusByte t = 0x0A) := by
  decide +kernel
/-- DEC46: `abxd`. -/
theorem test_decode_outside :
    ends (exec .decode { abcd with syms := fill 128 [0x61, 0x62, 0x78, 0x64], slen := 4, bytes := fill 16 [0x2A] })
      (fun t => statusByte t = 0x0E && t.errcode = 0x03 && t.errsym = 0x78 && t.erridx = 0x02 && t.blen = 0 &&
        t.bytes[0] = 0x00) := by decide +kernel
/-- B1. -/
theorem test_clralpha : ends (exec .clralpha abcd)
    (fun t => statusByte t = 0x02 && t.base = 0x00 && t.alen = 4 && t.alpha[3] = 0x64) := by decide +kernel
/-- B2: nothing locked. -/
theorem test_clralpha_unlocked : ends (exec .clralpha State.reset) (fun t => statusByte t = 0x02) := by decide +kernel

/-! Steps and edges -/

/-- K3: a reserved code. -/
theorem test_step_reserved : ends (step { State.reset with agenda := [.command 0x05] })
    (fun t => statusByte t = 0x06 && t.errcode = 0x09 && t.cmd = 0x05) := by decide +kernel
/-- H31: the completion of H21, 0x1B in `abcd` is `bcd`. -/
theorem test_step_completion : ends (step { busyEnc with accerr := true, agenda := [.completion] })
    (fun t => statusByte t = 0x1A && t.slen = 3 && t.syms.toList.take 3 == [0x62, 0x63, 0x64]) := by decide +kernel
/-- Z2: reset in flight. -/
theorem test_step_reset : ends (step { busyEnc with agenda := [.reset] })
    (fun t => statusByte t = 0x00 && t.bytes[0] = 0x00 && ctrlByte t = 0x02) := by decide +kernel
/-- Z4: a write presented at a reset edge does not take place. -/
theorem test_edge_reset_wins :
    ends (clockEdge ⟨true, true, true, 0x008, 0x10, true⟩ State.reset) (fun t => t.blen = 0x00 && !t.accerr) := by decide +kernel
/-- The first instruction after reset is the one the table word says (`wr CMD, 0x01`, then `rd VERSION`). -/
theorem test_fetch_word :
    ends (step (State.reset.withFetchWord 24 0x40001)) (fun t => statusByte t = 0x01 && t.cmd = 0x01) = true ∧
    ends (step (State.reset.withFetchWord 24 0x00F00)) (fun t => t.rdata = 0x01) = true := by decide +kernel

/-! Witnesses: encodings and the step -/

theorem witness_EncodeOfDecode :
    decode [0xFF, 0xFF, 0x07] = .ok (.wr 0x3FF 0xFF) ∧ decode [0x77, 0xFF, 0x03] = .ok (.rd 0x3FF) ∧
      encode (.rd 0x3FF) = [0x00, 0xFF, 0x03] ∧ decode [0x04] = .ok .clralpha := ⟨rfl, rfl, rfl, rfl⟩

theorem witness_DecodeAcceptsExactlyWellFormed : wellFormed [0xFF, 0xFF, 0x07] = true ∧ wellFormed [0xFF, 0xFF, 0x08] = false ∧
    wellFormed [0x04] = true ∧ wellFormed [0x05] = false := by decide

theorem witness_TransactionWordFields :
    (0x7FFFF#19).toNat / 2 ^ 18 = 1 ∧ (0x40000#19).toNat / 2 ^ 18 = 1 ∧ (0x3FFFF#19).toNat / 2 ^ 18 = 0 := by decide

theorem witness_CommandMap : 5 ≤ (0x05#8).toNat ∧ 5 ≤ (0xFF#8).toNat := by decide

theorem witness_StepRunsDecodedInstruction :
    decode [0x00, 0x01, 0x00] = .ok (.rd 0x001) ∧ eventOf [0x00, 0x01, 0x00] = some (.host 0x00100) ∧
      decode [0x02] = .ok .encode ∧ eventOf [0x02] = some (.command 0x02) ∧
      { abcd with agenda := [.host 0x00100, .idle] }.agenda = .host 0x00100 :: [.idle] := ⟨rfl, rfl, rfl, rfl, rfl⟩

theorem witness_StepOfOtherEvents :
    { busyEnc with agenda := [.completion] }.agenda = .completion :: [] ∧ busyEnc.busy = true ∧ abcd.busy = false ∧
      abcd.agenda = [] ∧ busyEnc.agenda = [] ∧ { abcd with agenda := [.idle, .reset] }.agenda = .idle :: [.reset] ∧
      { abcd with agenda := [.reset] }.agenda = .reset :: [] := by decide

theorem witness_CommandIsAcceptanceThenCompletion :
    State.reset.busy = false ∧ (0x01#8) ≠ 0x00 ∧ (0xFF#8) ≠ 0x00 ∧ failedDec.busy = false := by decide

theorem witness_CommandWhileBusyIsRefused : busyEnc.busy = true := by decide

/-! Witnesses: reset and invariants -/

theorem witness_ResetWinsOverEverything : (⟨true, true, true, 0x008, 0x10, true⟩ : Pins).rst = true ∧ busyEnc.busy = true := by
  decide

theorem witness_SameEdgeIsTransactionThenCompletion :
    let p : Pins := ⟨false, true, true, 0x040, 0x77, true⟩
    p.rst = false ∧ p.sel = true ∧ p.completionDue = true ∧ busyEnc.busy = true := by decide

theorem inv_reset : Inv State.reset := by decide +kernel
theorem inv_abcd : Inv abcd := by decide +kernel
theorem inv_busyEnc : Inv busyEnc := by decide +kernel
theorem inv_doneSet : Inv doneSet := by decide +kernel
theorem inv_failedDec : Inv failedDec := by decide +kernel
theorem inv_encTooLong : Inv encTooLong := by decide +kernel
theorem inv_decTooLong : Inv decTooLong := by decide +kernel
theorem inv_badCommand : Inv badCommand := by decide +kernel

theorem witness_StepKeepsInvariants :
    Inv State.reset ∧ Inv abcd ∧ Inv busyEnc ∧ Inv failedDec ∧ ends (step busyEnc) (fun t => t.done) = true ∧
      ends (step failedDec) (fun t => t.err) = true :=
  ⟨inv_reset, inv_abcd, inv_busyEnc, inv_failedDec, by decide +kernel, by decide +kernel⟩

theorem witness_ReachableStatesSatisfyR43 : Reachable { State.reset with agenda := [.command 0x01] } := .reset _

theorem witness_StepNeverStops : Inv busyEnc ∧ busyEnc.avalid = true := by decide +kernel

theorem witness_StatusByteIsLegal :
    Inv State.reset ∧ Inv busyEnc ∧ Inv doneSet ∧ Inv failedDec :=
  ⟨inv_reset, inv_busyEnc, inv_doneSet, inv_failedDec⟩

/-! Witnesses: host transactions -/

/-- Every clause of the two tables, at the ends of its range. -/
theorem witness_WriteTransaction_addresses :
    regOf 0x000 = .cmd ∧ regOf 0x001 = .status ∧ regOf 0x002 = .ctrl ∧ regOf 0x003 = .errcode ∧ regOf 0x004 = .errsym ∧
    regOf 0x005 = .erridx ∧ regOf 0x006 = .alenLo ∧ regOf 0x007 = .alenHi ∧ regOf 0x008 = .blen ∧ regOf 0x009 = .slen ∧
    regOf 0x00A = .base ∧ regOf 0x00B = .reserved ∧ regOf 0x00E = .reserved ∧ regOf 0x00F = .version ∧
    regOf 0x010 = .reserved ∧ regOf 0x03F = .reserved ∧ regOf 0x040 = .bytes 0 ∧ regOf 0x04F = .bytes 15 ∧
    regOf 0x050 = .reserved ∧ regOf 0x07F = .reserved ∧ regOf 0x080 = .syms 0 ∧ regOf 0x0FF = .syms 127 ∧
    regOf 0x100 = .alpha 0 ∧ regOf 0x1FE = .alpha 254 ∧ regOf 0x1FF = .reserved ∧ regOf 0x200 = .reserved ∧
    regOf 0x3FF = .reserved := by decide

theorem witness_WriteTransaction :
    busyEnc.busy = true ∧ State.reset.busy = false ∧ State.reset.avalid = false ∧ abcd.busy = false ∧ abcd.avalid = true ∧
    (0x10#8).getLsbD 4 = true ∧ (0xEF#8).getLsbD 4 = false ∧ (0x04F#10).toNat = 0x040 + (15 : Fin 16).val ∧
    (0x0FF#10).toNat = 0x080 + (127 : Fin 128).val ∧ (0x1FE#10).toNat = 0x100 + (254 : Fin 255).val := by decide

theorem witness_ReadTransaction :
    busyEnc.busy = true ∧ abcd.busy = false ∧ (0x00F#10).toNat = 0x00F ∧ (0x003#10).toNat ≠ 0x002 ∧
    (0x1FE#10).toNat = 0x100 + (254 : Fin 255).val := by decide

theorem witness_ReservedAddressesRefuse : (0x00B#10).toNat = 0x00B ∧ (0x00E#10).toNat ≤ 0x00E ∧ (0x03F#10).toNat ≤ 0x03F ∧
    0x050 ≤ (0x050#10).toNat ∧ (0x07F#10).toNat ≤ 0x07F ∧ (0x1FF#10).toNat = 0x1FF ∧ 0x200 ≤ (0x3FF#10).toNat := by decide

theorem witness_WriteThenReadBack :
    State.reset.busy = false ∧ State.reset.avalid = false ∧ abcd.busy = false ∧ 0x008 ≤ (0x008#10).toNat ∧
    (0x04F#10).toNat ≤ 0x04F ∧ (0x0FF#10).toNat ≤ 0x0FF ∧ 0x006 ≤ (0x006#10).toNat ∧ (0x1FE#10).toNat ≤ 0x1FE ∧
    (0x001#10) ≠ 0x008 := by decide

theorem witness_AlenIsTwoBytes : State.reset.busy = false ∧ State.reset.avalid = false := by decide

theorem witness_LockOutWhileBusy :
    busyEnc.busy = true ∧ (∀ e ∈ [Event.host 0x44077, .idle, .host 0x40203], isHostEvent e = true) ∧
    (0x003#10).toNat ≠ 0x000 ∧ (0x010#10).toNat ≠ 0x00F ∧ (0x00F#10).toNat = 0x00F := by decide

theorem witness_OutcomeIsFixedAtAcceptance :
    busyEnc.busy = true ∧ (∀ e ∈ [Event.host 0x44077, .idle], isHostEvent e = true) ∧
      ends (complete busyEnc) (fun _ => true) = true := by decide +kernel

theorem witness_LockedAlphabetIsImmutable :
    abcd.avalid = true ∧ ends (step { abcd with agenda := [.host 0x5007A] }) (fun t => t.avalid) = true ∧
    ends (step { abcd with agenda := [.command 0x04] }) (fun t => !t.avalid) = true ∧
    ends (step { abcd with agenda := [.reset] }) (fun t => !t.avalid) = true := by decide +kernel

/-- H13, and reset. -/
theorem witness_AccerrIsSticky :
    ends (step { State.reset with accerr := true, agenda := [.host 0x40110] }) (fun t => !t.accerr) = true ∧
    ends (step { State.reset with accerr := true, agenda := [.reset] }) (fun t => !t.accerr) = true := by decide +kernel

/-! Witnesses: the command protocol -/

theorem witness_AcceptanceOfCommand : State.reset.busy = false ∧ busyEnc.busy = true := by decide

theorem witness_CompletionFrame :
    busyEnc.busy = true ∧ ends (complete busyEnc) (fun _ => true) = true ∧ badCommand.busy = true ∧
    badCommand.cmd ≠ 0x02 ∧ badCommand.cmd ≠ 0x03 ∧ badCommand.cmd ≠ 0x01 ∧ badCommand.cmd ≠ 0x04 ∧
    ends (complete badCommand) (fun _ => true) = true := by decide +kernel

theorem witness_AckCommand : failedDec.busy = false ∧ busyEnc.busy = true := by decide

theorem witness_ReservedCommandFails : State.reset.busy = false ∧ 5 ≤ (0x05#8).toNat ∧ 5 ≤ (0xFF#8).toNat := by decide

/-- A failing ENCODE, a failing DECODE and a reserved code in flight. -/
theorem witness_FailureIsPrecise :
    Inv encTooLong ∧ encTooLong.busy = true ∧ ends (complete encTooLong) (fun t => t.err) = true ∧
    Inv decTooLong ∧ decTooLong.busy = true ∧ ends (complete decTooLong) (fun t => t.err) = true ∧
    Inv badCommand ∧ badCommand.busy = true ∧ ends (complete badCommand) (fun t => t.err) = true :=
  ⟨inv_encTooLong, by decide +kernel, by decide +kernel, inv_decTooLong, by decide +kernel, by decide +kernel,
    inv_badCommand, by decide +kernel, by decide +kernel⟩

theorem witness_DoneRisesAndFalls :
    ends (step busyEnc) (fun t => t.done) = true ∧ busyEnc.done = false ∧ failedDec.done = true ∧
    ends (step { failedDec with agenda := [.host 0x40000] }) (fun t => !t.done) = true ∧
    ends (step { failedDec with agenda := [.command 0x00] }) (fun t => !t.done) = true ∧
    ends (step { failedDec with agenda := [.reset] }) (fun t => !t.done) = true ∧
    ends (step { State.reset with agenda := [.command 0x04] }) (fun t => t.done) = true := by decide +kernel

theorem witness_InterruptIsALevel :
    busyEnc.busy = true ∧ ends (complete { busyEnc with ie := true }) irq = true ∧ failedDec.busy = false := by decide +kernel

theorem witness_BusyAlwaysEnds :
    Inv busyWithAgenda ∧ busyWithAgenda.busy = true ∧ ∀ e ∈ busyWithAgenda.agenda, isHostEvent e = true := by decide +kernel

/-! Witnesses: the alphabet commands -/

theorem witness_IdxFindsTheSymbol : ([0x61, 0x62] : List Byte).Nodup := by decide

/-- One state for each clause: locked, `ALEN` = 256 and 65535, `ALEN` = 1, a duplicate, success at the least base. -/
theorem witness_SetalphaCommand :
    abcd.busy = false ∧ abcd.avalid = true ∧ State.reset.busy = false ∧ State.reset.avalid = false ∧
    { State.reset with alen := 256 }.alen.toNat > 255 ∧ { State.reset with alen := 1 }.alen.toNat < 2 ∧
    repeated.busy = false ∧ repeated.avalid = false ∧ repeated.alen.toNat = 2 ∧
    repeated.alpha[(0 : Fin 255)] = repeated.alpha[(1 : Fin 255)] ∧
    distinct.busy = false ∧ distinct.avalid = false ∧ distinct.alen.toNat = 2 ∧
    distinct.alpha[(0 : Fin 255)] ≠ distinct.alpha[(1 : Fin 255)] := by decide +kernel

/-- The last two clauses of SETALPHA's statement, met by whole states. -/
theorem witness_SetalphaCommand_outcomes :
    ends (exec .setalpha repeated) (fun t => t.errcode = 0x01 && t.erridx = 1) = true ∧
    ends (exec .setalpha distinct) (fun t => t.avalid && t.base = 2) = true := by decide +kernel

theorem witness_ClralphaCommand : abcd.busy = false ∧ State.reset.busy = false := by decide

/-! Witnesses: the mathematical functions -/

/-- The alphabets the statements speak of: the least base, and `abcd`. -/
theorem witness_alphabets : isAlphabet [0x30, 0x31] = true ∧ isAlphabet [0x61, 0x62, 0x63, 0x64] = true := by decide

theorem witness_LeadValDigits : (2 : Nat) ≤ 2 ∧ val [1, 0, 0, 0, 2] 4 = 258 ∧ (∀ x ∈ [1, 0, 0, 0, 2], x < 4) ∧
    [1, 0, 0, 0, 2].head? ≠ some 0 := by decide

theorem witness_EncIsZeroSymbolsThenMinimalDigits :
    let A : List Byte := [0x61, 0x62, 0x63, 0x64]
    let b : List Byte := [0x00, 0x00, 0x01, 0x02]
    isAlphabet A = true ∧ (∀ x ∈ [1, 0, 0, 0, 2], x < A.length) ∧ [1, 0, 0, 0, 2].head? ≠ some 0 ∧
      val [1, 0, 0, 0, 2] A.length = val ((b.drop (lead b 0x00)).map BitVec.toNat) 256 := by decide

theorem witness_DecIsZeroBytesThenMinimalBytes :
    let A : List Byte := [0x61, 0x62, 0x63, 0x64]
    let s : List Byte := [0x61, 0x61, 0x62, 0x61, 0x61, 0x61, 0x63]
    let y : List Byte := [0x01, 0x02]
    isAlphabet A = true ∧ [1, 0, 0, 0, 2].map (fun i => A[i]?) = (s.drop (lead s (A.getD 0 0x00))).map some ∧
      y.head? ≠ some 0x00 ∧ val (y.map BitVec.toNat) 256 = val [1, 0, 0, 0, 2] A.length := by decide

/-- E16 is at the bound: base 2, sixteen bytes of 0xFF. -/
theorem witness_EncLengthBound : isAlphabet [0x30, 0x31] = true ∧
    (enc [0x30, 0x31] (List.replicate 16 0xFF)).length = 8 * 16 := by decide +kernel

theorem witness_EncOfEmptyOnly : isAlphabet [0x30, 0x31] = true ∧ enc [0x30, 0x31] [] = [] ∧ enc [0x30, 0x31] [0x00] = [0x30] := by decide +kernel

/-- S9: one value in each range of the first byte, and below all of them. -/
theorem witness_BaseFourLengths :
    isAlphabet [0x61, 0x62, 0x63, 0x64] = true ∧ baseFourLength 0x40 = 64 ∧ baseFourLength 0x3F = 63 ∧
    baseFourLength 0x10 = 63 ∧ baseFourLength 0x0F = 62 ∧ baseFourLength 0x04 = 62 ∧ baseFourLength 0x03 = 61 ∧
    baseFourLength 0x01 = 61 ∧ baseFourLength 0x00 = 16 := by decide +kernel

theorem witness_EncKeepsLeadAndIsInjective :
    isAlphabet [0x61, 0x62, 0x63, 0x64] = true ∧ enc [0x61, 0x62] [0x01] = enc [0x61, 0x62] [0x01] := by decide +kernel

/-- A UUID framed, and a shorter sequence with `STRICT16` = 0. -/
theorem witness_RoundTripLaw :
    isAlphabet [0x61, 0x62] = true ∧ uuidState.busy = false ∧ uuidState.avalid = true ∧ LockedIsAlphabet uuidState ∧
    uuidState.strict16 = true ∧ uuidState.blen.toNat = 16 ∧ abcd.busy = false ∧ abcd.avalid = true ∧ LockedIsAlphabet abcd ∧
    abcd.blen.toNat ≤ 16 ∧ abcd.strict16 = false := by decide +kernel

theorem witness_ConverseRoundTrip :
    isAlphabet [0x61, 0x62] = true ∧ ∀ c ∈ ([0x61, 0x62, 0x62] : List Byte), c ∈ ([0x61, 0x62] : List Byte) := by decide

theorem witness_LongStringsNeverFit :
    isAlphabet [0x61, 0x62] = true ∧ (∀ c ∈ List.replicate 129 (0x61 : Byte), c ∈ ([0x61, 0x62] : List Byte)) ∧
      128 < (List.replicate 129 (0x61 : Byte)).length := by decide +kernel

theorem witness_DecLengthBounds :
    isAlphabet [0x61, 0x62] = true ∧ (∀ c ∈ ([0x61, 0x62] : List Byte), c ∈ ([0x61, 0x62] : List Byte)) ∧
    shortDec.busy = false ∧ LockedIsAlphabet shortDec ∧ shortDec.strict16 = true ∧ shortDec.slen.toNat < 16 := by
  decide +kernel

theorem witness_LongDivisionIsExact : (2 : Nat) ≤ 255 ∧ 254 < 255 ∧ ∀ w ∈ [0, 255], w ≤ 255 := by decide

theorem witness_MultiplyAccumulateIsExact :
    (2 : Nat) ≤ 255 ∧ 254 < 255 ∧ (∀ w ∈ [255, 255], w ≤ 255) ∧ (mulAdd 255 [255, 255] 254).2 = 254 := by decide

theorem witness_EncReferenceComputesEnc : isAlphabet [0x61, 0x62] = true := by decide

/-- DEC46's alphabet; a result that fits, and one of 17 zero bytes that does not. -/
theorem witness_DecReferenceComputesDec :
    isAlphabet [0x61, 0x62] = true ∧ decReference [0x61, 0x62] [0x61, 0x62] = some [0x00, 0x01] ∧
      decReference [0x61, 0x62] (List.replicate 17 0x61) = none := by decide

/-! Witnesses: ENCODE and DECODE -/

/-- No alphabet; 17 bytes; 15 bytes framed; success at 16 and at 0. -/
theorem witness_EncodeCommand :
    State.reset.busy = false ∧ LockedIsAlphabet State.reset ∧ State.reset.avalid = false ∧ LockedIsAlphabet abcd ∧
    abcd.avalid = true ∧ { abcd with blen := 17 }.blen.toNat > 16 ∧
    ({ abcd with blen := 15, strict16 := true }.strict16 = true ∧ { abcd with blen := 15 }.blen.toNat ≠ 16) ∧
    { abcd with blen := 16 }.blen.toNat ≤ 16 ∧ (abcd.strict16 = true → abcd.blen.toNat = 16) := by decide +kernel

/-- No alphabet; 129 symbols; a symbol outside; a wrong decoded length; success at 0 symbols. -/
theorem witness_DecodeCommand :
    State.reset.busy = false ∧ LockedIsAlphabet State.reset ∧ State.reset.avalid = false ∧ LockedIsAlphabet abcd ∧
    abcd.avalid = true ∧ { abcd with slen := 129 }.slen.toNat > 128 ∧ { abcd with slen := 128 }.slen.toNat ≤ 128 ∧
    LockedIsAlphabet outsideDec ∧ outsideDec.slen.toNat = 1 ∧ outsideDec.syms[(0 : Fin 128)] ∉ alphabet outsideDec ∧
    LockedIsAlphabet shortDec ∧ shortDec.syms[(0 : Fin 128)] ∈ alphabet shortDec ∧ shortDec.strict16 = true ∧
    (dec (alphabet shortDec) (symOperand shortDec)).length ≠ 16 ∧
    (dec (alphabet abcd) (symOperand abcd)).length ≤ 16 ∧ abcd.strict16 = false := by decide +kernel

theorem witness_DecodeNeverTruncates :
    abcd.busy = false ∧
      ends (exec .decode { abcd with slen := 2, syms := fill 128 [0x61, 0x64] }) (fun t => !t.err) = true := by decide +kernel

theorem witness_OutputIsOverwritten : abcd.busy = false := by decide

/-- Buffers that agree up to the length in force and differ beyond it, and commands that complete. -/
theorem witness_StaleContentsAreHarmless :
    oneEach.busy = false ∧ (∀ i : Fin 16, i.val < oneEach.blen.toNat → (fill 16 [0x1B, 0x99])[i] = oneEach.bytes[i]) ∧
      (∀ i : Fin 128, i.val < oneEach.slen.toNat → (fill 128 [0x62, 0x99])[i] = oneEach.syms[i]) ∧
      (∀ i : Fin 255, i.val < oneEach.alen.toNat → (fill 255 [0x61, 0x62, 0x63, 0x64, 0x99])[i] = oneEach.alpha[i]) ∧
      ends (exec .encode oneEach) (fun t => !t.err) = true ∧ ends (exec .decode oneEach) (fun t => !t.err) = true ∧
      ends (exec .setalpha oneEach) (fun t => t.err) = true := by decide +kernel

end Sys2Proof.Tests
end

section
/-! SUPPORT. R8's functions characterised: `lead` by the elements it counts, `digits` as the minimal representation. -/

namespace Sys2Proof.Machine

/-! `lead` -/

/-- Every counted element is `e`. -/
theorem getElem?_of_lt_lead {s : List Byte} {e : Byte} {i : Nat} (hi : i < lead s e) : s[i]? = some e := by
  rw [← replicate_lead_append_drop s e, List.getElem?_append_left (by simpa using hi)]
  simp [hi]

/-- The count stops only at an element other than `e`, or at the end. -/
theorem getElem?_lead_ne (s : List Byte) (e : Byte) : s[lead s e]? ≠ some e := by
  rw [← List.head?_drop]
  exact head?_drop_lead s e

/-! `digits` -/

/-- Induction along the divisions that produce the digits (41_encode.md R146). -/
theorem digits_induction {B : Nat} (hB : 2 ≤ B) {P : Nat → List Nat → Prop} (zero : P 0 [])
    (step : ∀ V, V ≠ 0 → P (V / B) (digits (V / B) B) → P V (digits (V / B) B ++ [V % B])) (V : Nat) :
    P V (digits V B) := by
  induction V using Nat.strongRecOn with
  | ind V ih =>
    by_cases hV : V = 0
    · subst hV
      simpa using zero
    · rw [digits_step hB hV]
      exact step V hV (ih _ (Nat.div_lt_self (Nat.pos_of_ne_zero hV) hB))

theorem lt_of_mem_digits {B : Nat} (hB : 2 ≤ B) (V : Nat) : ∀ x ∈ digits V B, x < B := by
  refine digits_induction hB (P := fun _ d => ∀ x ∈ d, x < B) (by simp) (fun V _ ih x hx => ?_) V
  rcases List.mem_append.mp hx with hx | hx
  · exact ih x hx
  · rw [List.mem_singleton.mp hx]
    exact Nat.mod_lt V (by omega)

theorem val_digits {B : Nat} (hB : 2 ≤ B) (V : Nat) : val (digits V B) B = V := by
  refine digits_induction hB (P := fun V d => val d B = V) (val_nil B) (fun V _ ih => ?_) V
  rw [val_concat, ih]
  exact Nat.div_add_mod' V B

theorem digits_eq_nil_iff {B : Nat} (hB : 2 ≤ B) (V : Nat) : digits V B = [] ↔ V = 0 := by
  constructor
  · intro h
    rw [← val_digits hB V, h, val_nil]
  · rintro rfl
    exact digits_zero B

theorem head?_digits_ne_zero {B : Nat} (hB : 2 ≤ B) (V : Nat) : (digits V B).head? ≠ some 0 := by
  refine digits_induction hB (P := fun _ d => d.head? ≠ some 0) (by simp) (fun V hV ih => ?_) V
  by_cases hq : V / B = 0
  · have hlt : V < B := by simpa [show B ≠ 0 by omega] using hq
    simpa [hq, Nat.mod_eq_of_lt hlt] using hV
  · rwa [List.head?_append_of_ne_nil _ (mt (digits_eq_nil_iff hB _).mp hq)]

/-- A list of digits that does not begin with 0 is `digits` of its value: the last digit is the remainder, those before it
are the digits of the quotient. -/
theorem eq_digits_val {B : Nat} (hB : 2 ≤ B) {d : List Nat} (hd : ∀ x ∈ d, x < B) (h0 : d.head? ≠ some 0) :
    d = digits (val d B) B := by
  induction d using List.reverseRecOn with
  | nil => simp
  | append_singleton d x ih =>
    have hx : x < B := hd x (by simp)
    have hdq : d = digits (val d B) B :=
      ih (fun y hy => hd y (by simp [hy])) (fun h => h0 (by simp [h]))
    have hq : (val d B * B + x) / B = val d B := by
      rw [Nat.mul_comm, Nat.mul_add_div (by omega), Nat.div_eq_of_lt hx, Nat.add_zero]
    have hr : (val d B * B + x) % B = x := by
      rw [Nat.mul_comm, Nat.mul_add_mod, Nat.mod_eq_of_lt hx]
    have hV : val d B * B + x ≠ 0 := by
      intro hz
      obtain ⟨hm, rfl⟩ := Nat.add_eq_zero_iff.mp hz
      have hv : val d B = 0 := (Nat.mul_eq_zero.mp hm).resolve_right (by omega)
      rw [hv, digits_zero] at hdq
      exact h0 (by simp [hdq])
    rw [val_concat, digits_step hB hV, hq, hr, ← hdq]

/-- Settles O40: the count of `lead` by the split at it, `digits` by induction along its divisions, uniqueness by induction
from the last digit. -/
theorem leadValDigits : Obligations.LeadValDigits := by
  unfold Obligations.LeadValDigits
  refine ⟨fun s e => ⟨lead_le_length s e, fun i => getElem?_of_lt_lead, fun _ => getElem?_lead_ne s e⟩, val_nil,
    val_concat, fun V B hB => ⟨lt_of_mem_digits hB V, val_digits hB V, digits_eq_nil_iff hB V,
      head?_digits_ne_zero hB V, ?_⟩⟩
  rintro d hd rfl h0
  exact eq_digits_val hB hd h0

end Sys2Proof.Machine
end

section
/-! SUPPORT. The event that presents an instruction runs it. -/

namespace Sys2Proof.Machine

/-- A command byte of the map runs the instruction it decodes to. -/
theorem runCommand_of_decodeCmd {op : Byte} {i : Instr} (h : decodeCmd op = .ok i) (s : State) :
    runCommand op s = exec i s := by
  simp only [runCommand, h]

/-- Bytes the decoder accepts have an event, and it runs the instruction they decode to. -/
theorem eventOf_of_decode {bs : List Byte} {i : Instr} (h : decode bs = .ok i) :
    ∃ e, eventOf bs = some e ∧ ∀ s, runEvent e s = exec i s := by
  match bs, h with
  | [op], h => exact ⟨.command op, rfl, runCommand_of_decodeCmd h⟩
  | [lo, mid, hi], h =>
    by_cases hhi : hi.toNat < 8
    · have hdec : decodeXact (xwordOfBytes lo mid hi) = i := by simpa [decode, hhi] using h
      exact ⟨.host (xwordOfBytes lo mid hi), by simp [eventOf, hhi], fun s => by rw [← hdec]; rfl⟩
    · simp [decode, hhi] at h
  | [], h | [_, _], h | _ :: _ :: _ :: _ :: _, h => simp [decode] at h

/-- Settles O7: a step runs the event at the head of the agenda, and that event runs the decoded instruction. -/
theorem stepRunsDecodedInstruction : Obligations.StepRunsDecodedInstruction := by
  unfold Obligations.StepRunsDecodedInstruction
  intro s rest bs i h
  obtain ⟨e, he, hrun⟩ := eventOf_of_decode h
  exact ⟨e, he, fun ha => by rw [step_cons ha, hrun]⟩

end Sys2Proof.Machine
end

section
/-! SUPPORT. What a completion, a command byte and a step can do, said once, from which the statements about every step
follow. -/

namespace Sys2Proof.Machine

/-! The address map, read backwards -/

theorem toNat_of_scalarOf_cmd {n : Nat} (h : scalarOf n = .cmd) : n = 0x000 := by
  unfold scalarOf at h
  split at h <;> simp_all

theorem toNat_of_scalarOf_status {n : Nat} (h : scalarOf n = .status) : n = 0x001 := by
  unfold scalarOf at h
  split at h <;> simp_all

/-- `CMD` has one address. -/
theorem eq_of_regOf_cmd {a : Addr} (h : regOf a = .cmd) : a = 0x000 := by
  unfold regOf at h
  split_ifs at h
  exact BitVec.eq_of_toNat_eq (toNat_of_scalarOf_cmd h)

/-- `STATUS` has one address. -/
theorem eq_of_regOf_status {a : Addr} (h : regOf a = .status) : a = 0x001 := by
  unfold regOf at h
  split_ifs at h
  exact BitVec.eq_of_toNat_eq (toNat_of_scalarOf_status h)

/-! Writes -/

/-- Only a write of `CMD` changes `DONE`. -/
theorem writeReg_done {r : Reg} (hr : r ≠ .cmd) (v : Byte) (s : State) : (writeReg r v s).done = s.done := by
  rcases writeReg_cases r v s with ⟨hc, -⟩ | e | ⟨-, -, e⟩ | ⟨_, _, _, _, _, _, e⟩ | ⟨-, _, _, e⟩
  · exact absurd hc hr
  · simp [e]
  · simp [e]
  · simp [e]
  · simp [e]

/-- A write never raises `DONE`. -/
theorem writeReg_keeps_done_low (r : Reg) (v : Byte) {s : State} (h : s.done = false) : (writeReg r v s).done = false := by
  by_cases hr : r = .cmd
  · subst hr
    rfl
  · rw [writeReg_done hr, h]

/-- Only a write of `STATUS` with bit 4 set clears `ACCERR` (R33). -/
theorem writeReg_clears_accerr {r : Reg} {v : Byte} {s : State} (h : s.accerr = true)
    (ht : (writeReg r v s).accerr = false) : r = .status ∧ v.getLsbD 4 = true := by
  rcases writeReg_cases r v s with ⟨-, e⟩ | e | ⟨hr, hv, -⟩ | ⟨_, _, _, _, _, _, e⟩ | ⟨-, _, _, e⟩
  · simp [e, h] at ht
  · simp [e] at ht
  · exact ⟨hr, hv⟩
  · simp [e, h] at ht
  · simp [e, h] at ht

/-! Completions -/

/-- SETALPHA's scan finds no duplicate exactly in a table without repeats (40_alphabet.md R122). -/
theorem firstDup_eq_none_iff (l : List Byte) : firstDup l = none ↔ l.Nodup := by
  simpa [firstDup] using firstDupFrom_eq_none 0 [] l

/-- Everything the completion of a command can leave behind: a failure, which names a symbol only with the two codes that
have one; a success that at most wrote the data buffers; a table without repeats locked; or the alphabet released. -/
theorem completeCommand_next {s t : State} (h : completeCommand s = .next t) :
    (∃ e sym pos b x n l, ((sym = 0x00 ∧ pos = 0x00) ∨ e = .ambiguous ∨ e = .nonBase) ∧
      t = raise e sym pos { s with bytes := b, syms := x, blen := n, slen := l }) ∨
    (∃ b x n l, t = succeed { s with bytes := b, syms := x, blen := n, slen := l }) ∨
    (2 ≤ s.alen.toNat ∧ s.alen.toNat ≤ 255 ∧ (candidate s).Nodup ∧
      t = succeed { s with avalid := true, base := BitVec.ofNat 8 s.alen.toNat }) ∨
    t = succeed { s with avalid := false, base := 0x00 } := by
  rcases completeCommand_cases s with ⟨-, e⟩ | ⟨-, e⟩ | ⟨-, e⟩ | ⟨-, e⟩ | ⟨-, -, -, -, e⟩ <;> rw [e] at h
  · rcases setalphaComplete_cases s with ⟨_, -, e⟩ | ⟨_, _, -, -, -, -, e⟩ | ⟨-, h2, h255, hd, e⟩ <;>
      cases e.symm.trans h
    · exact .inl ⟨_, _, _, s.bytes, s.syms, s.blen, s.slen, .inl ⟨rfl, rfl⟩, rfl⟩
    · exact .inl ⟨_, _, _, s.bytes, s.syms, s.blen, s.slen, .inr (.inl rfl), rfl⟩
    · exact .inr (.inr (.inl ⟨h2, h255, (firstDup_eq_none_iff _).mp hd, rfl⟩))
  · rcases encodeComplete_cases s with ⟨-, e⟩ | ⟨-, -, e⟩ | ⟨-, -, -, -, e⟩ | ⟨-, -, -, -, e⟩ <;>
      cases e.symm.trans h
    · exact .inl ⟨_, _, _, _, _, _, _, .inl ⟨rfl, rfl⟩, rfl⟩
    · exact .inl ⟨_, _, _, _, _, _, _, .inl ⟨rfl, rfl⟩, rfl⟩
    · exact .inr (.inl ⟨_, _, _, _, rfl⟩)
  · rcases decodeComplete_cases s with ⟨-, e⟩ | ⟨-, -, e⟩ | ⟨-, -, -, e⟩ | ⟨_, _, -, -, -, -, e⟩ |
        ⟨-, -, -, -, -, e⟩ | ⟨-, -, -, -, -, -, e⟩ <;>
      cases e.symm.trans h
    · exact .inl ⟨_, _, _, _, _, _, _, .inl ⟨rfl, rfl⟩, rfl⟩
    · exact .inl ⟨_, _, _, _, _, _, _, .inl ⟨rfl, rfl⟩, rfl⟩
    · exact .inl ⟨_, _, _, _, _, _, _, .inr (.inr rfl), rfl⟩
    · exact .inl ⟨_, _, _, _, _, _, _, .inl ⟨rfl, rfl⟩, rfl⟩
    · exact .inr (.inl ⟨_, _, _, _, rfl⟩)
  · exact .inr (.inr (.inr (Host.Outcome.next.inj h).symm))
  · cases h
    exact .inl ⟨_, _, _, s.bytes, s.syms, s.blen, s.slen, .inl ⟨rfl, rfl⟩, rfl⟩

/-- Every completion ends `BUSY`, sets `DONE`, and leaves `ACCERR` alone (43_control.md R181). -/
theorem completeCommand_flags {s t : State} (h : completeCommand s = .next t) :
    t.busy = false ∧ t.done = true ∧ t.accerr = s.accerr := by
  rcases completeCommand_next h with ⟨_, _, _, _, _, _, _, -, rfl⟩ | ⟨_, _, _, _, rfl⟩ | ⟨-, -, -, rfl⟩ | rfl <;>
    exact ⟨rfl, rfl, rfl⟩

/-- The engine's step is the completion of the command in flight, or nothing. -/
theorem complete_next {s t : State} (h : complete s = .next t) :
    (s.busy = false ∧ t = s) ∨ (s.busy = true ∧ completeCommand s = .next t) := by
  cases hb : s.busy with
  | false => exact .inl ⟨rfl, (Host.Outcome.next.inj ((complete_idle hb).symm.trans h)).symm⟩
  | true => exact .inr ⟨rfl, (complete_busy hb).symm.trans h⟩

theorem complete_accerr {s t : State} (h : complete s = .next t) : t.accerr = s.accerr := by
  rcases complete_next h with ⟨-, rfl⟩ | ⟨-, hc⟩
  · rfl
  · obtain ⟨-, -, hacc⟩ := completeCommand_flags hc
    exact hacc

/-- A step of the engine that takes `DONE` from 0 to 1 ended the command in flight. -/
theorem complete_raises_done {s t : State} (h : complete s = .next t) (h0 : s.done = false) (h1 : t.done = true) :
    s.busy = true ∧ t.busy = false := by
  rcases complete_next h with ⟨-, rfl⟩ | ⟨hb, hc⟩
  · simp [h0] at h1
  · obtain ⟨hend, -, -⟩ := completeCommand_flags hc
    exact ⟨hb, hend⟩

/-- The engine never clears `DONE`. -/
theorem complete_keeps_done {s t : State} (h : complete s = .next t) (h1 : s.done = true) : t.done = true := by
  rcases complete_next h with ⟨-, rfl⟩ | ⟨-, hc⟩
  · exact h1
  · obtain ⟨-, hdone, -⟩ := completeCommand_flags hc
    exact hdone

/-! Command bytes -/

/-- Issued commands agree when their completions agree after acceptance. -/
theorem issue_congr {op : Byte} {fin fin' : State → Result} {s : State}
    (h : ∀ u : State, u.busy = false → fin (accept op u) = fin' (accept op u)) : issue op fin s = issue op fin' s := by
  cases hb : s.busy with
  | true => rw [issue_busy hb, issue_busy hb]
  | false =>
    rw [issue_idle hb, issue_idle hb]
    exact h _ hb

/-- A code from 5 up is no row of the command map (30_encoding.md R94). -/
theorem decodeCmd_reserved {op : Byte} (h : 5 ≤ op.toNat) : decodeCmd op = .error (.reservedCommand op) := by
  obtain ⟨n, hn⟩ := Nat.exists_eq_add_of_le' h
  simp only [decodeCmd, hn]

/-- A code from 5 up completes as a reserved one (43_control.md R183). -/
theorem completeCommand_reserved {s : State} (h : 5 ≤ s.cmd.toNat) : completeCommand s = reservedComplete s := by
  obtain ⟨n, hn⟩ := Nat.exists_eq_add_of_le' h
  simp only [completeCommand, hn]

/-- An accepted command other than ACK enables the engine's step (43_control.md R180, R181). -/
theorem complete_accept {op : Byte} (h : op ≠ 0x00) (s : State) :
    complete (accept op s) = completeCommand (accept op s) :=
  complete_busy (by simp only [accept_busy, h, ne_eq, not_false_eq_true, decide_true, Bool.or_true])

/-- After ACK the engine has no step (43_control.md R182). -/
theorem complete_accept_ack {s : State} (h : s.busy = false) : complete (accept 0x00 s) = .next (accept 0x00 s) :=
  complete_idle (by simp [h])

/-- A command byte is the issue of its code followed by the engine's step, for every code. -/
theorem runCommand_eq_issue (op : Byte) (s : State) : runCommand op s = issue op complete s := by
  by_cases h5 : 5 ≤ op.toNat
  · rw [runCommand, decodeCmd_reserved h5]
    refine issue_congr fun _ _ => ?_
    rw [complete_accept (by rintro rfl; simp at h5), completeCommand_reserved h5]
  · obtain rfl | rfl | rfl | rfl | rfl : op = 0x00 ∨ op = 0x01 ∨ op = 0x02 ∨ op = 0x03 ∨ op = 0x04 := by bv_omega
    · exact issue_congr fun _ hb => (complete_accept_ack hb).symm
    all_goals
      refine issue_congr fun _ _ => ?_
      rw [complete_accept]
      · rfl
      · decide

/-! Events and steps -/

/-- Everything an event that answers a next state can do: write a register while idle; nothing to the engine, but for a
refusal's `ACCERR`; reset; accept a command and take the engine's step after it; take the engine's step. The state
`idleEdge s` is `s` with no read data on the port. -/
theorem runEvent_next {e : Event} {s t : State} (h : runEvent e s = .next t) :
    (∃ a v, s.busy = false ∧ e = .host (xwordOf true a v) ∧ t = writeReg (regOf a) v (idleEdge s)) ∨
    (∃ accerr rdata, (s.accerr = true → accerr = true) ∧ t = { s with accerr := accerr, rdata := rdata }) ∨
    (e = .reset ∧ t = resetEdge s) ∨
    (∃ op, s.busy = false ∧ e = .command op ∧ complete (accept op (idleEdge s)) = .next t) ∨
    (e = .completion ∧ complete s = .next t) := by
  rcases runEvent_cases e s with ⟨a, v, he, hr⟩ | ⟨_, a, -, hr⟩ | ⟨op, he, hr⟩ | ⟨he, hr⟩ | ⟨-, hr⟩ | ⟨he, hr⟩ <;>
    rw [hr] at h
  · obtain rfl := Host.Outcome.next.inj h
    cases hb : s.busy with
    | true => exact .inr (.inl ⟨true, 0x00, fun _ => rfl, by simp only [hostWrite_busy hb, hb]⟩)
    | false => exact .inl ⟨a, v, rfl, he, hostWrite_idle hb a v⟩
  · obtain rfl := Host.Outcome.next.inj h
    rcases hostRead_cases a s with ⟨_, -, -, hread⟩ | hread
    · exact .inr (.inl ⟨_, _, id, hread⟩)
    · exact .inr (.inl ⟨_, _, fun _ => rfl, hread⟩)
  · rw [runCommand_eq_issue] at h
    cases hb : s.busy with
    | true =>
      rw [issue_busy hb] at h
      exact .inr (.inl ⟨true, 0x00, fun _ => rfl, by simp only [← Host.Outcome.next.inj h, hb]⟩)
    | false =>
      rw [issue_idle hb] at h
      exact .inr (.inr (.inr (.inl ⟨op, rfl, he, h⟩)))
  · exact .inr (.inr (.inr (.inr ⟨he, h⟩)))
  · exact .inr (.inl ⟨_, _, id, (Host.Outcome.next.inj h).symm⟩)
  · exact .inr (.inr (.inl ⟨he, (Host.Outcome.next.inj h).symm⟩))

/-- With no event left a command in flight completes, and an idle engine stays idle. -/
theorem step_nil {s : State} (h : s.agenda = []) :
    step s = if s.busy = true then complete s else .next (idleEdge s) := by
  simp only [step, h]

/-- A step runs one event: the first of the agenda, or, when none is left, a completion or an idle edge (logs 1, 3). -/
theorem step_eq_runEvent (s : State) :
    ∃ e rest, (s.agenda = e :: rest ∨ s.agenda = [] ∧ (e = .completion ∨ e = .idle)) ∧
      step s = runEvent e { s with agenda := rest } := by
  cases ha : s.agenda with
  | cons e rest => exact ⟨e, rest, .inl rfl, step_cons ha⟩
  | nil =>
    by_cases hb : s.busy = true
    · exact ⟨.completion, s.agenda, .inr ⟨rfl, .inl rfl⟩, by rw [step_nil ha, if_pos hb]; rfl⟩
    · exact ⟨.idle, s.agenda, .inr ⟨rfl, .inr rfl⟩, by rw [step_nil ha, if_neg hb]; rfl⟩

end Sys2Proof.Machine
end

section
/-! SUPPORT. The statements about every step: the invariants, `ACCERR`, `DONE`. -/

namespace Sys2Proof.Machine

/-! The invariants -/

/-- Locking a valid table keeps the invariants: `BASE` is `ALEN`, and the alphabet in force is the candidate. -/
theorem inv_lock {s : State} (h : Inv s) (h2 : 2 ≤ s.alen.toNat) (h255 : s.alen.toNat ≤ 255)
    (hn : (candidate s).Nodup) : Inv { s with avalid := true, base := BitVec.ofNat 8 s.alen.toNat } := by
  obtain ⟨hquiet, hdone, hcode, hdetail, -, hcmd, hknown⟩ := h
  have hbase : (BitVec.ofNat 8 s.alen.toNat).toNat = s.alen.toNat := by
    rw [BitVec.toNat_ofNat, Nat.mod_eq_of_lt (by omega)]
  have hne : BitVec.ofNat 8 s.alen.toNat ≠ 0x00 := by
    intro h0
    rw [h0] at hbase
    simp at hbase
    omega
  refine ⟨hquiet, hdone, hcode, hdetail, ⟨by simpa using hne, fun _ => ⟨?_, ?_, ?_⟩⟩, hcmd, hknown⟩
  · simpa only [hbase] using h2
  · exact hbase.symm
  · simpa only [alphabet, candidate, hbase] using hn

/-- Releasing the alphabet keeps them. -/
theorem inv_release {s : State} (h : Inv s) : Inv { s with avalid := false, base := 0x00 } := by
  obtain ⟨hquiet, hdone, hcode, hdetail, -, hcmd, hknown⟩ := h
  exact ⟨hquiet, hdone, hcode, hdetail, by simp [LockedIsAlphabet], hcmd, hknown⟩

/-- The completion of a command keeps them, since acceptance has cleared the last failure. -/
theorem inv_completeCommand {s t : State} (h : Inv s) (he : s.err = false) (ht : completeCommand s = .next t) :
    Inv t := by
  rcases completeCommand_next ht with
    ⟨e, sym, pos, b, x, n, l, hd, rfl⟩ | ⟨b, x, n, l, rfl⟩ | ⟨h2, h255, hn, rfl⟩ | rfl
  · exact inv_raise (inv_with_buffers h b x n l s.rdata s.ie s.strict16 s.accerr s.agenda) e sym pos hd
  · exact inv_succeed (inv_with_buffers h b x n l s.rdata s.ie s.strict16 s.accerr s.agenda) he
  · exact inv_succeed (inv_lock h h2 h255 hn) he
  · exact inv_succeed (inv_release h) he

/-- The engine's step keeps them: a command in flight has no failure on record. -/
theorem inv_complete {s t : State} (h : Inv s) (ht : complete s = .next t) : Inv t := by
  rcases complete_next ht with ⟨-, rfl⟩ | ⟨hb, hc⟩
  · exact h
  · obtain ⟨-, herr, -⟩ := h.1 hb
    exact inv_completeCommand h herr hc

/-- An edge without transaction keeps them. -/
theorem inv_idleEdge {s : State} (h : Inv s) : Inv (idleEdge s) := h

/-- Reset establishes them, whatever agenda it leaves. -/
theorem inv_reset_with_agenda (es : List Event) : Inv { State.reset with agenda := es } := by
  refine ⟨?_, ?_, ?_, ?_, ?_, ?_, ?_⟩ <;>
    simp [BusyIsQuiet, ErrIsDone, ErrHasCode, DetailHasCode, LockedIsAlphabet, BusyHasCommand, CodeIsKnown, State.reset]

/-- Every event keeps them, by the cases of what it can do. -/
theorem inv_runEvent {e : Event} {s t : State} (h : Inv s) (ht : runEvent e s = .next t) : Inv t := by
  rcases runEvent_next ht with ⟨a, v, hb, -, rfl⟩ | ⟨_, _, -, rfl⟩ | ⟨-, rfl⟩ | ⟨op, hb, -, hc⟩ | ⟨-, hc⟩
  · exact inv_writeReg (inv_idleEdge h) hb (regOf a) v
  · exact h
  · exact inv_reset_with_agenda s.agenda
  · exact inv_complete (inv_accept (inv_idleEdge h) hb op) hc
  · exact inv_complete h hc

/-- Settles O15: a step is an event, and the invariants do not see the agenda. -/
theorem stepKeepsInvariants : Obligations.StepKeepsInvariants := by
  unfold Obligations.StepKeepsInvariants
  intro s t h hst
  obtain ⟨e, rest, -, hrun⟩ := step_eq_runEvent s
  exact inv_runEvent (s := { s with agenda := rest }) h (hrun.symm.trans hst)

/-- The invariants hold in every reachable state. -/
theorem inv_of_reachable {s : State} (h : Reachable s) : Inv s := by
  induction h with
  | reset agenda => exact inv_reset_with_agenda agenda
  | step _ hst ih => exact stepKeepsInvariants _ _ ih hst

/-- Settles O16: the six items are the invariants but for the range of `ERRCODE`. -/
theorem reachableStatesSatisfyR43 : Obligations.ReachableStatesSatisfyR43 := by
  unfold Obligations.ReachableStatesSatisfyR43
  intro s h
  obtain ⟨hquiet, hdone, hcode, hdetail, hlocked, hcmd, -⟩ := inv_of_reachable h
  exact ⟨hquiet, hdone, hcode, hdetail, hlocked, hcmd⟩

/-! `ACCERR` -/

/-- An event that clears `ACCERR` is reset, or a write of `STATUS` with bit 4 set while idle (R33). -/
theorem runEvent_clears_accerr {e : Event} {s t : State} (h : s.accerr = true) (ht : runEvent e s = .next t)
    (h0 : t.accerr = false) :
    e = .reset ∨ s.busy = false ∧ ∃ v : Byte, v.getLsbD 4 = true ∧ e = .host (xwordOf true 0x001 v) := by
  rcases runEvent_next ht with ⟨a, v, hb, he, rfl⟩ | ⟨_, _, hkeep, rfl⟩ | ⟨he, -⟩ | ⟨_, -, -, hc⟩ | ⟨-, hc⟩
  · obtain ⟨hr, hv⟩ := writeReg_clears_accerr (s := idleEdge s) h h0
    obtain rfl := eq_of_regOf_status hr
    exact .inr ⟨hb, v, hv, he⟩
  · simp [hkeep h] at h0
  · exact .inl he
  · simp [complete_accerr hc, h] at h0
  · simp [complete_accerr hc, h] at h0

/-- Settles O27: the event that clears `ACCERR` is no completion and no idle edge, so it heads the agenda. -/
theorem accerrIsSticky : Obligations.AccerrIsSticky := by
  unfold Obligations.AccerrIsSticky
  intro s t h hst h0
  obtain ⟨e, rest, ha, hrun⟩ := step_eq_runEvent s
  rcases runEvent_clears_accerr (s := { s with agenda := rest }) h (hrun.symm.trans hst) h0 with
    rfl | ⟨hb, v, hv, rfl⟩
  · exact .inl ⟨rest, by simpa using ha⟩
  · exact .inr ⟨hb, v, rest, hv, by simpa using ha⟩

/-! `DONE` -/

/-- An event that raises `DONE` ends a command: the one in flight, or one issued and run to its end. -/
theorem runEvent_raises_done {e : Event} {s t : State} (h0 : s.done = false) (ht : runEvent e s = .next t)
    (h1 : t.done = true) : t.busy = false ∧ (s.busy = true ∨ ∃ op, op ≠ 0x00 ∧ e = .command op) := by
  rcases runEvent_next ht with ⟨a, v, -, -, rfl⟩ | ⟨_, _, -, rfl⟩ | ⟨-, rfl⟩ | ⟨op, hb, he, hc⟩ | ⟨-, hc⟩
  · rw [writeReg_keeps_done_low _ _ (s := idleEdge s) h0] at h1
    contradiction
  · simp [h0] at h1
  · cases h1
  · obtain ⟨hbusy, hend⟩ := complete_raises_done hc rfl h1
    exact ⟨hend, .inr ⟨op, by simpa [hb] using hbusy, he⟩⟩
  · obtain ⟨hbusy, hend⟩ := complete_raises_done hc h0 h1
    exact ⟨hend, .inl hbusy⟩

/-- An event that clears `DONE` is reset or the issue of a command, as a command byte or as a write of `CMD`. -/
theorem runEvent_clears_done {e : Event} {s t : State} (h1 : s.done = true) (ht : runEvent e s = .next t)
    (h0 : t.done = false) : e = .reset ∨ (∃ op, e = .command op) ∨ ∃ v, e = .host (xwordOf true 0x000 v) := by
  rcases runEvent_next ht with ⟨a, v, -, he, rfl⟩ | ⟨_, _, -, rfl⟩ | ⟨he, -⟩ | ⟨op, -, he, -⟩ | ⟨-, hc⟩
  · by_cases hr : regOf a = .cmd
    · obtain rfl := eq_of_regOf_cmd hr
      exact .inr (.inr ⟨v, he⟩)
    · simp [writeReg_done hr, h1] at h0
  · simp [h1] at h0
  · exact .inl he
  · exact .inr (.inl ⟨op, he⟩)
  · simp [complete_keeps_done hc h1] at h0

/-- Settles O33: the event that clears `DONE`, and the command byte that raises it, head the agenda. -/
theorem doneRisesAndFalls : Obligations.DoneRisesAndFalls := by
  unfold Obligations.DoneRisesAndFalls
  intro s t hst
  obtain ⟨e, rest, ha, hrun⟩ := step_eq_runEvent s
  have ht := hrun.symm.trans hst
  refine ⟨fun h0 h1 => ?_, fun h1 h0 => ?_⟩
  · obtain ⟨hend, hb | ⟨op, hop, rfl⟩⟩ := runEvent_raises_done (s := { s with agenda := rest }) h0 ht h1
    · exact ⟨hend, .inl hb⟩
    · exact ⟨hend, .inr ⟨op, rest, hop, by simpa using ha⟩⟩
  · rcases runEvent_clears_done (s := { s with agenda := rest }) h1 ht h0 with rfl | ⟨op, rfl⟩ | ⟨v, rfl⟩
    · exact .inl ⟨rest, by simpa using ha⟩
    · exact .inr (.inl ⟨op, rest, by simpa using ha⟩)
    · exact .inr (.inr ⟨v, rest, by simpa using ha⟩)

end Sys2Proof.Machine
end

section
/-! SUPPORT. The address map as a function back from registers, and each host transaction by the register its address
names; from these the statements about single transactions. -/

namespace Sys2Proof.Machine

/-! The address map, in both directions -/

/-- The host address of a register (20_memory.md R61). `reserved` is no one cell: it gets a number above every
address. -/
def Reg.address : Reg → Nat
  | .cmd => 0x000
  | .status => 0x001
  | .ctrl => 0x002
  | .errcode => 0x003
  | .errsym => 0x004
  | .erridx => 0x005
  | .alenLo => 0x006
  | .alenHi => 0x007
  | .blen => 0x008
  | .slen => 0x009
  | .base => 0x00A
  | .version => 0x00F
  | .bytes i => 0x040 + i.val
  | .syms i => 0x080 + i.val
  | .alpha i => 0x100 + i.val
  | .reserved => 0x400

/-- The address of a register names it. -/
theorem regOf_eq_of_address {a : Addr} (r : Reg) (h : a.toNat = r.address) : regOf a = r := by
  cases r with
  | bytes i => exact regOf_bytes i h
  | syms i => exact regOf_syms i h
  | alpha i => exact regOf_alpha i h
  | reserved => exact absurd h (Nat.ne_of_lt a.isLt)
  | _ =>
    rw [regOf_scalar (by rw [h]; decide), h]
    rfl

theorem address_scalarOf {n : Nat} (h : scalarOf n ≠ .reserved) : (scalarOf n).address = n := by
  unfold scalarOf at h ⊢
  split at h
  case h_13 => exact absurd rfl h
  all_goals rfl

/-- A register that an address names has that address. -/
theorem address_regOf {a : Addr} (h : regOf a ≠ .reserved) : (regOf a).address = a.toNat := by
  unfold regOf at h ⊢
  split_ifs at h ⊢ with hbytes hsyms halpha
  · exact Nat.add_sub_cancel' hbytes.1
  · exact Nat.add_sub_cancel' hsyms.1
  · exact Nat.add_sub_cancel' halpha.1
  · exact address_scalarOf h

theorem regOf_eq_iff {r : Reg} (hr : r ≠ .reserved) (a : Addr) : regOf a = r ↔ a.toNat = r.address :=
  ⟨by rintro rfl; exact (address_regOf hr).symm, regOf_eq_of_address r⟩

theorem regOf_inj {a a' : Addr} (h : regOf a ≠ .reserved) (he : regOf a' = regOf a) : a' = a :=
  BitVec.eq_of_toNat_eq (((regOf_eq_iff h a').mp he).trans (address_regOf h))

theorem readableWhileBusy_iff (r : Reg) :
    readableWhileBusy r = true ↔ r = .cmd ∨ r = .status ∨ r = .ctrl ∨ r = .version := by
  cases r <;> simp [readableWhileBusy]

/-- The four registers that stay readable while busy, by address (20_memory.md R66). -/
theorem readableWhileBusy_regOf_iff (a : Addr) :
    readableWhileBusy (regOf a) = true ↔
      a.toNat = 0x000 ∨ a.toNat = 0x001 ∨ a.toNat = 0x002 ∨ a.toNat = 0x00F := by
  rw [readableWhileBusy_iff]
  exact or_congr (regOf_eq_iff (r := .cmd) nofun a) (or_congr (regOf_eq_iff (r := .status) nofun a)
    (or_congr (regOf_eq_iff (r := .ctrl) nofun a) (regOf_eq_iff (r := .version) nofun a)))

/-! What the bytes of the state are as numbers -/

/-- `STATUS` as read, bit by bit (30_encoding.md R95). -/
theorem statusByte_eq (s : State) : statusByte s = BitVec.ofNat 8
    (16 * s.accerr.toNat + 8 * s.avalid.toNat + 4 * s.err.toNat + 2 * s.done.toNat + s.busy.toNat) := by
  unfold statusByte
  generalize s.accerr = x, s.avalid = v, s.err = e, s.done = d, s.busy = b
  revert x v e d b
  decide

/-- `CTRL` as read, bit by bit (30_encoding.md R96). -/
theorem ctrlByte_eq (s : State) : ctrlByte s = BitVec.ofNat 8 (2 * s.strict16.toNat + s.ie.toNat) := by
  unfold ctrlByte
  generalize s.strict16 = x, s.ie = i
  revert x i
  decide

theorem toNat_append_byte (h l : Byte) : (h ++ l).toNat = h.toNat * 256 + l.toNat := by
  rw [BitVec.toNat_append, ← Nat.shiftLeft_add_eq_or_of_lt l.isLt, Nat.shiftLeft_eq]

theorem low_byte_append (h l : Byte) : (h ++ l).extractLsb' 0 8 = l := BitVec.extractLsb'_append_eq_right

theorem high_byte_append (h l : Byte) : (h ++ l).extractLsb' 8 8 = h := BitVec.extractLsb'_append_eq_left

theorem low_byte_eq (x : Half) : x.extractLsb' 0 8 = BitVec.ofNat 8 x.toNat := rfl

theorem high_byte_eq (x : Half) : x.extractLsb' 8 8 = BitVec.ofNat 8 (x.toNat / 256) := by
  rw [BitVec.extractLsb', Nat.shiftRight_eq_div_pow]

theorem toNat_low_byte (x : Half) : (x.extractLsb' 0 8).toNat = x.toNat % 256 := by
  rw [low_byte_eq, BitVec.toNat_ofNat]

theorem toNat_high_byte (x : Half) : (x.extractLsb' 8 8).toNat = x.toNat / 256 := by
  have := x.isLt
  rw [high_byte_eq, BitVec.toNat_ofNat]
  omega

theorem append_byte_eq (h l : Byte) : h ++ l = BitVec.ofNat 16 (h.toNat * 256 + l.toNat) := by
  rw [← toNat_append_byte, BitVec.ofNat_toNat, BitVec.setWidth_eq]

/-! Writes -/

theorem exec_wr_busy {s : State} (hb : s.busy = true) (a : Addr) (v : Byte) :
    exec (.wr a v) s = .next { s with accerr := true, rdata := 0x00 } :=
  congrArg _ (hostWrite_busy hb a v)

/-- An idle write writes the register at its address. -/
theorem exec_wr_idle {s : State} (hb : s.busy = false) {a : Addr} (r : Reg) (h : regOf a = r) (v : Byte) :
    exec (.wr a v) s = .next (writeReg r v (idleEdge s)) := by
  subst h
  exact congrArg _ (hostWrite_idle hb a v)

/-- A write that its register refuses only sets `ACCERR`, busy or idle (20_memory.md R65). -/
theorem exec_wr_refused {s : State} {a : Addr} (r : Reg) (h : regOf a = r) {v : Byte}
    (hw : writeReg r v (idleEdge s) = refuse (idleEdge s)) :
    exec (.wr a v) s = .next { s with accerr := true, rdata := 0x00 } := by
  cases hb : s.busy with
  | true => simpa only [hb] using exec_wr_busy hb a v
  | false =>
    rw [exec_wr_idle hb r h, hw]
    simp only [refuse, idleEdge, hb]

theorem writeReg_alenLo {s : State} (hv : s.avalid = false) (v : Byte) :
    writeReg .alenLo v s = { s with alen := s.alen.extractLsb' 8 8 ++ v } := if_neg (by simp [hv])

theorem writeReg_alenHi {s : State} (hv : s.avalid = false) (v : Byte) :
    writeReg .alenHi v s = { s with alen := v ++ s.alen.extractLsb' 0 8 } := if_neg (by simp [hv])

theorem writeReg_alpha {s : State} (hv : s.avalid = false) (i : Fin 255) (v : Byte) :
    writeReg (.alpha i) v s = { s with alpha := s.alpha.set i v } := if_neg (by simp [hv])

/-- The registers that are locked with the alphabet (20_memory.md R67). -/
theorem writeReg_locked {s : State} (hv : s.avalid = true) {r : Reg}
    (hr : r = .alenLo ∨ r = .alenHi ∨ ∃ i, r = .alpha i) (v : Byte) : writeReg r v s = refuse s := by
  rcases hr with rfl | rfl | ⟨i, rfl⟩ <;> exact if_pos hv

theorem exec_wr_alenLo {s : State} (hb : s.busy = false) (hv : s.avalid = false) {a : Addr} (h : a.toNat = 0x006)
    (v : Byte) : exec (.wr a v) s = .next { s with alen := s.alen.extractLsb' 8 8 ++ v, rdata := 0x00 } := by
  rw [exec_wr_idle hb .alenLo (regOf_eq_of_address _ h), writeReg_alenLo (s := idleEdge s) hv]
  rfl

theorem exec_wr_alenHi {s : State} (hb : s.busy = false) (hv : s.avalid = false) {a : Addr} (h : a.toNat = 0x007)
    (v : Byte) : exec (.wr a v) s = .next { s with alen := v ++ s.alen.extractLsb' 0 8, rdata := 0x00 } := by
  rw [exec_wr_idle hb .alenHi (regOf_eq_of_address _ h), writeReg_alenHi (s := idleEdge s) hv]
  rfl

theorem exec_wr_alpha {s : State} (hb : s.busy = false) (hv : s.avalid = false) {a : Addr} (i : Fin 255)
    (h : a.toNat = 0x100 + i.val) (v : Byte) :
    exec (.wr a v) s = .next { s with alpha := s.alpha.set i v, rdata := 0x00 } := by
  rw [exec_wr_idle hb (.alpha i) (regOf_eq_of_address _ h), writeReg_alpha (s := idleEdge s) hv]
  rfl

/-- Acceptance of a command by a host write, as a record (43_control.md R180). -/
theorem exec_wr_cmd {s : State} (hb : s.busy = false) {a : Addr} (h : a.toNat = 0x000) (v : Byte) :
    exec (.wr a v) s = .next
      { s with
        cmd := v, done := false, err := false, errcode := 0x00, errsym := 0x00, erridx := 0x00,
        busy := decide (v ≠ 0x00), rdata := 0x00 } := by
  rw [exec_wr_idle hb .cmd (regOf_eq_of_address _ h)]
  simp only [writeReg, accept, idleEdge, hb, Bool.false_or]

/-- A write of `STATUS` clears `ACCERR` when data bit 4 is 1, and does nothing else (20_memory.md R63). -/
theorem exec_wr_status {s : State} (hb : s.busy = false) {a : Addr} (h : a.toNat = 0x001) (v : Byte) :
    exec (.wr a v) s = .next { s with accerr := s.accerr && !v.getLsbD 4, rdata := 0x00 } := by
  rw [exec_wr_idle hb .status (regOf_eq_of_address _ h), writeReg]
  cases v.getLsbD 4 <;> simp [idleEdge]

/-- Settles O19: each line of R63 is the write of the register at its address. -/
theorem writeTransaction : Obligations.WriteTransaction := by
  unfold Obligations.WriteTransaction
  intro s a v
  dsimp only
  refine ⟨fun hb => exec_wr_busy hb a v, fun hb => ?_⟩
  have line (r : Reg) (h : a.toNat = r.address) := exec_wr_idle hb r (regOf_eq_of_address r h) v
  have refused (r : Reg) (hr : ∀ u, writeReg r v u = refuse u) (h : a.toNat = r.address) :=
    exec_wr_refused r (regOf_eq_of_address r h) (hr (idleEdge s))
  have locked (r : Reg) (hr : r = .alenLo ∨ r = .alenHi ∨ ∃ i, r = .alpha i) (h : a.toNat = r.address)
      (hv : s.avalid = true) := exec_wr_refused r (regOf_eq_of_address r h) (writeReg_locked (s := idleEdge s) hv hr v)
  refine ⟨fun h => exec_wr_cmd hb h v, fun h h4 => ?clear, fun h h4 => ?keep, line .ctrl, ?readOnly,
    locked .alenLo (.inl rfl), fun h hv => ?low, locked .alenHi (.inr (.inl rfl)), fun h hv => ?high, line .blen,
    line .slen, fun i => line (.bytes i), fun i => line (.syms i), fun i => locked (.alpha i) (.inr (.inr ⟨i, rfl⟩)),
    fun i h hv => exec_wr_alpha hb hv i h v, fun h => exec_wr_refused .reserved (regOf_reserved h) rfl⟩
  case clear => rw [exec_wr_status hb h, h4, Bool.not_true, Bool.and_false]
  case keep => rw [exec_wr_status hb h, h4, Bool.not_false, Bool.and_true]
  case readOnly =>
    rintro (h | h | h | h | h)
    · exact refused .errcode (fun _ => rfl) h
    · exact refused .errsym (fun _ => rfl) h
    · exact refused .erridx (fun _ => rfl) h
    · exact refused .base (fun _ => rfl) h
    · exact refused .version (fun _ => rfl) h
  case low => rw [exec_wr_alenLo hb hv h, append_byte_eq, toNat_high_byte]
  case high => rw [exec_wr_alenHi hb hv h, append_byte_eq, toNat_low_byte]

/-! Reads -/

theorem exec_rd_eq (a : Addr) (s : State) : exec (.rd a) s = .next (hostRead a s) := rfl

/-- A read that is not locked out returns the register at its address, and changes nothing else. -/
theorem exec_rd_of_readReg {s : State} {a : Addr} (r : Reg) (h : regOf a = r)
    (hb : s.busy = false ∨ readableWhileBusy r = true) {v : Byte} (hv : readReg r s = some v) :
    exec (.rd a) s = .next { s with rdata := v } := by
  subst h
  rw [exec_rd_eq, hostRead, if_neg (by rcases hb with hb | hb <;> simp [hb]), hv]

/-- A read that is locked out, or that no register answers, only sets `ACCERR` and returns 0x00 (20_memory.md R65). -/
theorem exec_rd_refused {s : State} {a : Addr}
    (h : s.busy = true ∧ readableWhileBusy (regOf a) = false ∨ readReg (regOf a) s = none) :
    exec (.rd a) s = .next { s with accerr := true, rdata := 0x00 } := by
  rcases hostRead_cases a s with ⟨w, hw, hread, -⟩ | hr
  · rcases h with ⟨hb, hn⟩ | hn
    · simp [hread hb] at hn
    · simp [hw] at hn
  · rw [exec_rd_eq, hr]

/-- While busy a read of any address but the four of R66 is refused. -/
theorem exec_rd_lockedOut {s : State} (hb : s.busy = true) {a : Addr}
    (h : a.toNat ≠ 0x000 ∧ a.toNat ≠ 0x001 ∧ a.toNat ≠ 0x002 ∧ a.toNat ≠ 0x00F) :
    exec (.rd a) s = .next { s with accerr := true, rdata := 0x00 } := by
  have hn : readableWhileBusy (regOf a) = false := by
    rw [← Bool.not_eq_true, readableWhileBusy_regOf_iff]
    tauto
  exact exec_rd_refused (.inl ⟨hb, hn⟩)

/-- Settles O20: each line of R64 is the read of the register at its address. -/
theorem readTransaction : Obligations.ReadTransaction := by
  unfold Obligations.ReadTransaction
  intro s a
  dsimp only
  have always (r : Reg) {v : Byte} (hr : readableWhileBusy r = true) (hv : readReg r s = some v)
      (h : a.toNat = r.address) := exec_rd_of_readReg r (regOf_eq_of_address r h) (.inr hr) hv
  refine ⟨always .cmd rfl rfl, always .status rfl (congrArg some (statusByte_eq s)),
    always .ctrl rfl (congrArg some (ctrlByte_eq s)), always .version rfl rfl,
    fun hb => exec_rd_lockedOut hb, fun hb => ?_⟩
  have line (r : Reg) {v : Byte} (hv : readReg r s = some v) (h : a.toNat = r.address) :=
    exec_rd_of_readReg r (regOf_eq_of_address r h) (.inl hb) hv
  exact ⟨line .errcode rfl, line .errsym rfl, line .erridx rfl, line .alenLo (congrArg some (low_byte_eq s.alen)),
    line .alenHi (congrArg some (high_byte_eq s.alen)), line .blen rfl, line .slen rfl, line .base rfl,
    fun i => line (.bytes i) rfl, fun i => line (.syms i) rfl, fun i => line (.alpha i) rfl,
    fun h => exec_rd_refused (.inr (by rw [regOf_reserved h]; rfl))⟩

/-- Settles O21: the addresses R78 lists name the reserved register, which refuses reads and writes. -/
theorem reservedAddressesRefuse : Obligations.ReservedAddressesRefuse := by
  unfold Obligations.ReservedAddressesRefuse
  intro s a v h
  have hr : regOf a = .reserved := regOf_reserved (by omega)
  exact ⟨exec_rd_refused (.inr (by rw [hr]; rfl)), exec_wr_refused .reserved hr rfl⟩

/-! A write, then reads -/

/-- The registers that hold, after a write, the value written. -/
def Stores (s : State) : Reg → Prop
  | .blen | .slen | .bytes _ | .syms _ => True
  | .alenLo | .alenHi | .alpha _ => s.avalid = false
  | _ => False

/-- A storing register is a register, and a write of it starts no command. -/
theorem Stores.ne {s : State} {r : Reg} (h : Stores s r) : r ≠ .cmd ∧ r ≠ .reserved := by
  constructor <;> rintro rfl <;> exact h

/-- The addresses of the storing registers (20_memory.md R61, R63). -/
theorem stores_regOf {s : State} {a : Addr}
    (h : 0x008 ≤ a.toNat ∧ a.toNat ≤ 0x009 ∨ 0x040 ≤ a.toNat ∧ a.toNat ≤ 0x04F ∨ 0x080 ≤ a.toNat ∧ a.toNat ≤ 0x0FF ∨
      s.avalid = false ∧ (0x006 ≤ a.toNat ∧ a.toNat ≤ 0x007 ∨ 0x100 ≤ a.toNat ∧ a.toNat ≤ 0x1FE)) :
    Stores s (regOf a) := by
  have named (r : Reg) (ha : a.toNat = r.address) (hs : Stores s r) : Stores s (regOf a) := by
    rwa [regOf_eq_of_address r ha]
  rcases h with ⟨h1, h2⟩ | ⟨h1, h2⟩ | ⟨h1, h2⟩ | ⟨hv, ⟨h1, h2⟩ | ⟨h1, h2⟩⟩
  · obtain h | h : a.toNat = 0x008 ∨ a.toNat = 0x009 := by omega
    · exact named .blen h trivial
    · exact named .slen h trivial
  · exact named (.bytes ⟨a.toNat - 0x040, by omega⟩) (Nat.add_sub_cancel' h1).symm trivial
  · exact named (.syms ⟨a.toNat - 0x080, by omega⟩) (Nat.add_sub_cancel' h1).symm trivial
  · obtain h | h : a.toNat = 0x006 ∨ a.toNat = 0x007 := by omega
    · exact named .alenLo h hv
    · exact named .alenHi h hv
  · exact named (.alpha ⟨a.toNat - 0x100, by omega⟩) (Nat.add_sub_cancel' h1).symm hv

/-- A stored value is read back. -/
theorem readReg_writeReg_same {s : State} {r : Reg} (h : Stores s r) (v : Byte) :
    readReg r (writeReg r v s) = some v := by
  cases r with
  | blen | slen => rfl
  | bytes i | syms i => exact congrArg some (Vector.getElem_set_self _)
  | alenLo =>
    rw [writeReg_alenLo h]
    exact congrArg some (low_byte_append _ _)
  | alenHi =>
    rw [writeReg_alenHi h]
    exact congrArg some (high_byte_append _ _)
  | alpha i =>
    rw [writeReg_alpha h]
    exact congrArg some (Vector.getElem_set_self _)
  | _ => exact h.elim

/-- The other cells of a register file keep their values. -/
theorem getElem_set_of_ne {n : Nat} (x : Vector Byte n) {i j : Fin n} (h : j ≠ i) (v : Byte) :
    (x.set i v)[j] = x[j] :=
  Vector.getElem_set_ne _ _ fun he => h (Fin.ext he.symm)

/-- A stored value leaves every other register as it was. -/
theorem readReg_writeReg_ne {s : State} {r r' : Reg} (h : Stores s r) (hne : r' ≠ r) (v : Byte) :
    readReg r' (writeReg r v s) = readReg r' s := by
  cases r with
  | blen =>
    cases r' with
    | blen => exact absurd rfl hne
    | _ => rfl
  | slen =>
    cases r' with
    | slen => exact absurd rfl hne
    | _ => rfl
  | bytes i =>
    cases r' with
    | bytes j => exact congrArg some (getElem_set_of_ne _ (fun he => hne (congrArg _ he)) v)
    | _ => rfl
  | syms i =>
    cases r' with
    | syms j => exact congrArg some (getElem_set_of_ne _ (fun he => hne (congrArg _ he)) v)
    | _ => rfl
  | alenLo =>
    rw [writeReg_alenLo h]
    cases r' with
    | alenLo => exact absurd rfl hne
    | alenHi => exact congrArg some (high_byte_append _ _)
    | _ => rfl
  | alenHi =>
    rw [writeReg_alenHi h]
    cases r' with
    | alenHi => exact absurd rfl hne
    | alenLo => exact congrArg some (low_byte_append _ _)
    | _ => rfl
  | alpha i =>
    rw [writeReg_alpha h]
    cases r' with
    | alpha j => exact congrArg some (getElem_set_of_ne _ (fun he => hne (congrArg _ he)) v)
    | _ => rfl
  | _ => exact h.elim

/-- Only a write of `CMD` changes `BUSY`. -/
theorem writeReg_busy {r : Reg} (hr : r ≠ .cmd) (v : Byte) (s : State) : (writeReg r v s).busy = s.busy := by
  rcases writeReg_cases r v s with ⟨hc, -⟩ | e | ⟨-, -, e⟩ | ⟨_, _, _, _, _, _, e⟩ | ⟨-, _, _, e⟩
  · exact absurd hc hr
  all_goals simp [e]

/-- What is on the port does not matter to a read. -/
theorem readReg_idleEdge (r : Reg) (s : State) : readReg r (idleEdge s) = readReg r s := by
  cases r <;> rfl

/-- An idle read returns what its register answers, or 0x00 where none does (20_memory.md R65). -/
theorem exec_rd_rdata {s : State} (hb : s.busy = false) (a : Addr) :
    ∃ u, exec (.rd a) s = .next u ∧ u.rdata = (readReg (regOf a) s).getD 0x00 := by
  cases hv : readReg (regOf a) s with
  | some v => exact ⟨_, exec_rd_of_readReg _ rfl (.inl hb) hv, rfl⟩
  | none => exact ⟨_, exec_rd_refused (.inr hv), rfl⟩

/-- Settles O22: the address names a storing register, and every other address names another register or none. -/
theorem writeThenReadBack : Obligations.WriteThenReadBack := by
  unfold Obligations.WriteThenReadBack
  intro s a v hb ha
  have hst : Stores (idleEdge s) (regOf a) := stores_regOf ha
  obtain ⟨hcmd, hres⟩ := hst.ne
  have hbt : (writeReg (regOf a) v (idleEdge s)).busy = false := (writeReg_busy hcmd v _).trans hb
  refine ⟨_, exec_wr_idle hb _ rfl v,
    ⟨_, exec_rd_of_readReg _ rfl (.inl hbt) (readReg_writeReg_same hst v), rfl⟩, fun a' hne => ?_⟩
  obtain ⟨u, hu, hur⟩ := exec_rd_rdata hb a'
  obtain ⟨u', hu', hur'⟩ := exec_rd_rdata hbt a'
  refine ⟨u, u', hu, hu', ?_⟩
  rw [hur', hur, readReg_writeReg_ne hst (fun he => hne (regOf_inj hres he)), readReg_idleEdge]

/-- Settles O23: each transaction moves one byte of `ALEN` and keeps the other. -/
theorem alenIsTwoBytes : Obligations.AlenIsTwoBytes := by
  unfold Obligations.AlenIsTwoBytes
  intro s hb
  refine ⟨⟨_, _, exec_rd_of_readReg .alenHi rfl (.inl hb) rfl, exec_rd_of_readReg .alenLo rfl (.inl hb) rfl, ?_⟩,
    fun hv h l => ⟨?_, ?_⟩⟩
  · rw [toNat_high_byte, toNat_low_byte, Nat.div_add_mod']
  · have hhigh := exec_wr_alenHi (s := { s with alen := s.alen.extractLsb' 8 8 ++ l, rdata := 0x00 }) hb hv
      (a := 0x007) rfl h
    refine ⟨_, _, exec_wr_alenLo hb hv rfl l, hhigh, ?_⟩
    rw [low_byte_append, toNat_append_byte]
  · have hlow := exec_wr_alenLo (s := { s with alen := h ++ s.alen.extractLsb' 0 8, rdata := 0x00 }) hb hv
      (a := 0x006) rfl l
    refine ⟨_, _, exec_wr_alenHi hb hv rfl h, hlow, ?_⟩
    rw [high_byte_append, toNat_append_byte]

end Sys2Proof.Machine
end

section
/-! SUPPORT. A command in flight: what the host can do meanwhile, and that its completion does not depend on it. -/

namespace Sys2Proof.Machine

/-! Sequences of events -/

theorem runEvents_cons_next {e : Event} {s t : State} (h : runEvent e s = .next t) (es : List Event) :
    runEvents (e :: es) s = runEvents es t := by
  rw [runEvents, h]

theorem runEvents_singleton (e : Event) (s : State) : runEvents [e] s = runEvent e s := by
  rw [runEvents]
  cases runEvent e s <;> rfl

/-! What the host can change while a command is in flight -/

/-- `s` with the two fields that a host transaction may change while busy (20_memory.md R62, R66). -/
def withPort (accerr : Bool) (rdata : Byte) (s : State) : State := { s with accerr := accerr, rdata := rdata }

/-- While busy a host event changes `ACCERR` and the port alone. -/
theorem runEvent_host_busy {s : State} (hb : s.busy = true) {e : Event} (he : isHostEvent e = true) :
    ∃ accerr rdata, runEvent e s = .next (withPort accerr rdata s) := by
  rcases runEvent_cases e s with ⟨a, v, -, hr⟩ | ⟨_, a, -, hr⟩ | ⟨_, rfl, -⟩ | ⟨rfl, -⟩ | ⟨-, hr⟩ | ⟨rfl, -⟩
  · exact ⟨true, 0x00, by rw [hr, hostWrite_busy hb, withPort]⟩
  · rcases hostRead_cases a s with ⟨v, -, -, hread⟩ | hread
    · exact ⟨s.accerr, v, by rw [hr, hread, withPort]⟩
    · exact ⟨true, 0x00, by rw [hr, hread, withPort]⟩
  · cases he
  · cases he
  · exact ⟨s.accerr, 0x00, by rw [hr, idleEdge, withPort]⟩
  · cases he

/-- While busy a sequence of host events changes no more, since the command stays in flight. -/
theorem runEvents_host_busy {s : State} (hb : s.busy = true) {es : List Event}
    (hes : ∀ e ∈ es, isHostEvent e = true) :
    ∃ accerr rdata, runEvents es s = .next (withPort accerr rdata s) := by
  induction es generalizing s with
  | nil => exact ⟨s.accerr, s.rdata, rfl⟩
  | cons e es ih =>
    obtain ⟨x, r, hrun⟩ := runEvent_host_busy hb (hes e (by simp))
    obtain ⟨x', r', hrest⟩ := ih (s := withPort x r s) hb fun e' he' => hes e' (by simp [he'])
    exact ⟨x', r', (runEvents_cons_next hrun es).trans hrest⟩

/-- Settles O24: refused writes and reads by R66's list of registers, and the sequence by induction on its events. -/
theorem lockOutWhileBusy : Obligations.LockOutWhileBusy := by
  unfold Obligations.LockOutWhileBusy
  intro s hb
  refine ⟨exec_wr_busy hb, fun a => exec_rd_lockedOut hb, fun a ha => ?_, fun es hes => runEvents_host_busy hb hes⟩
  have hr := (readableWhileBusy_regOf_iff a).mpr ha
  obtain ⟨v, hv⟩ : ∃ v, readReg (regOf a) s = some v := by
    rcases (readableWhileBusy_iff _).mp hr with h | h | h | h <;> exact ⟨_, by rw [h]; rfl⟩
  exact ⟨v, exec_rd_of_readReg _ rfl (.inr hr) hv⟩

/-- Settles O10: a command byte is an issue, for every code, and an issue while busy is a refused write. -/
theorem commandWhileBusyIsRefused : Obligations.CommandWhileBusyIsRefused := by
  unfold Obligations.CommandWhileBusyIsRefused
  intro s op hb
  rw [runCommand_eq_issue, issue_busy hb]

/-- Settles O14: the edge is the host event of its transaction, then, since that answers a next state, the
completion. -/
theorem sameEdgeIsTransactionThenCompletion : Obligations.SameEdgeIsTransactionThenCompletion := by
  unfold Obligations.SameEdgeIsTransactionThenCompletion
  intro p s hrst hsel hdue hb
  obtain ⟨x, r, hrun⟩ := runEvent_host_busy hb (e := .host (xwordOf p.we p.addr p.wdata)) rfl
  have hexec : exec (decodeXact (xwordOf p.we p.addr p.wdata)) s = .next (withPort x r s) := hrun
  rw [runEvents_cons_next hrun, runEvents_singleton, clockEdge, hrst, hsel, hdue, hb]
  simp only [Bool.false_eq_true, if_false, if_true, hexec, Bool.and_self]
  rfl

/-! The completion does not depend on it -/

/-- A result with its next state changed. -/
def mapNext (f : State → State) : Result → Result
  | .next s => .next (f s)
  | .fault r => .fault r
  | .refused r => .refused r

section Completion

variable (accerr : Bool) (rdata : Byte) (s : State)

theorem setalphaComplete_withPort :
    setalphaComplete (withPort accerr rdata s) = mapNext (withPort accerr rdata) (setalphaComplete s) := by
  have hcand : candidate (withPort accerr rdata s) = candidate s := rfl
  unfold setalphaComplete
  rw [hcand]
  rcases firstDup (candidate s) with _ | ⟨c, j⟩ <;> simp only [apply_ite (mapNext _)] <;> rfl

theorem encodeComplete_withPort :
    encodeComplete (withPort accerr rdata s) = mapNext (withPort accerr rdata) (encodeComplete s) := by
  unfold encodeComplete
  simp only [apply_ite (mapNext _)]
  rfl

theorem decodeComplete_withPort :
    decodeComplete (withPort accerr rdata s) = mapNext (withPort accerr rdata) (decodeComplete s) := by
  have halpha : alphabet (withPort accerr rdata s) = alphabet s := rfl
  have hsyms : symOperand (withPort accerr rdata s) = symOperand s := rfl
  unfold decodeComplete
  rw [halpha, hsyms]
  rcases firstOutside (alphabet s) (symOperand s) with _ | ⟨c, k⟩ <;> simp only [apply_ite (mapNext _)] <;> rfl

/-- The completion of every command commutes with a change of `ACCERR` and the port: no meaning reads them. -/
theorem completeCommand_withPort :
    completeCommand (withPort accerr rdata s) = mapNext (withPort accerr rdata) (completeCommand s) := by
  have hcmd : (withPort accerr rdata s).cmd = s.cmd := rfl
  unfold completeCommand
  rw [hcmd]
  split
  · exact setalphaComplete_withPort accerr rdata s
  · exact encodeComplete_withPort accerr rdata s
  · exact decodeComplete_withPort accerr rdata s
  · rfl
  · rfl

end Completion

/-- Settles O25: the host events change `ACCERR` and the port alone, by induction, and the completion commutes with that
change. -/
theorem outcomeIsFixedAtAcceptance : Obligations.OutcomeIsFixedAtAcceptance := by
  unfold Obligations.OutcomeIsFixedAtAcceptance
  intro s es hb hes
  obtain ⟨accerr, rdata, hrun⟩ := runEvents_host_busy hb hes
  refine ⟨_, hrun, fun u hu => ⟨withPort accerr rdata u, ?_, rfl⟩⟩
  rw [complete_busy hb] at hu
  rw [complete_busy (s := withPort accerr rdata s) hb, completeCommand_withPort, hu, mapNext]

end Sys2Proof.Machine
end

section
/-! SUPPORT. What no step does to a locked alphabet, and the order in which a byte sequence is read. -/

namespace Sys2Proof.Machine

/-! A locked alphabet -/

/-- `t` has the alphabet of `s`, locked or not as in `s`. -/
def SameLock (s t : State) : Prop :=
  t.avalid = s.avalid ∧ t.alpha = s.alpha ∧ t.alen = s.alen ∧ t.base = s.base

/-- `t` is as a completion of CLRALPHA leaves it: no alphabet, the command ended (40_alphabet.md R123). -/
def Released (t : State) : Prop := t.avalid = false ∧ t.cmd = 0x04 ∧ t.done = true

theorem sameLock_refl (s : State) : SameLock s s := ⟨rfl, rfl, rfl, rfl⟩

/-- A register write keeps a locked alphabet (20_memory.md R67). -/
theorem sameLock_writeReg {s : State} (hv : s.avalid = true) (r : Reg) (v : Byte) : SameLock s (writeReg r v s) := by
  rcases writeReg_cases r v s with ⟨-, e⟩ | e | ⟨-, -, e⟩ | ⟨_, _, _, _, _, _, e⟩ | ⟨hv', -⟩
  case inr.inr.inr.inr => simp [hv] at hv'
  all_goals
    rw [e]
    exact sameLock_refl s

section Buffers

variable (b : Vector Byte 16) (x : Vector Byte 128) (n l : Byte) (s : State)

/-- A failure and a success keep the alphabet, whatever they write to the data buffers. -/
theorem sameLock_raise (e : ErrCode) (sym pos : Byte) :
    SameLock s (raise e sym pos { s with bytes := b, syms := x, blen := n, slen := l }) := sameLock_refl s

theorem sameLock_succeed : SameLock s (succeed { s with bytes := b, syms := x, blen := n, slen := l }) :=
  sameLock_refl s

end Buffers

theorem setalphaComplete_locked {s : State} (hv : s.avalid = true) :
    setalphaComplete s = .next (raise .locked 0x00 0x00 s) := if_pos hv

theorem sameLock_encodeComplete {s t : State} (h : encodeComplete s = .next t) : SameLock s t := by
  rcases encodeComplete_cases s with ⟨-, e⟩ | ⟨-, -, e⟩ | ⟨-, -, -, -, e⟩ | ⟨-, -, -, -, e⟩ <;>
    cases e.symm.trans h
  · exact sameLock_raise ..
  · exact sameLock_raise ..
  · exact sameLock_succeed ..

theorem sameLock_decodeComplete {s t : State} (h : decodeComplete s = .next t) : SameLock s t := by
  rcases decodeComplete_cases s with ⟨-, e⟩ | ⟨-, -, e⟩ | ⟨-, -, -, e⟩ | ⟨_, _, -, -, -, -, e⟩ |
      ⟨-, -, -, -, -, e⟩ | ⟨-, -, -, -, -, -, e⟩ <;>
    cases e.symm.trans h
  · exact sameLock_raise ..
  · exact sameLock_raise ..
  · exact sameLock_raise ..
  · exact sameLock_raise ..
  · exact sameLock_succeed ..

/-- Every completion keeps a locked alphabet but that of CLRALPHA (40_alphabet.md R124). -/
theorem completeCommand_locked {s t : State} (hv : s.avalid = true) (h : completeCommand s = .next t) :
    SameLock s t ∨ Released t := by
  rcases completeCommand_cases s with ⟨-, e⟩ | ⟨-, e⟩ | ⟨-, e⟩ | ⟨hc, e⟩ | ⟨-, -, -, -, e⟩ <;> rw [e] at h
  · cases (setalphaComplete_locked hv).symm.trans h
    exact .inl (sameLock_raise ..)
  · exact .inl (sameLock_encodeComplete h)
  · exact .inl (sameLock_decodeComplete h)
  · cases h
    exact .inr ⟨rfl, hc, rfl⟩
  · cases h
    exact .inl (sameLock_raise ..)

theorem complete_locked {s t : State} (hv : s.avalid = true) (h : complete s = .next t) :
    SameLock s t ∨ Released t := by
  rcases complete_next h with ⟨-, rfl⟩ | ⟨-, hc⟩
  · exact .inl (sameLock_refl t)
  · exact completeCommand_locked hv hc

/-- Every event keeps a locked alphabet but reset and the completion of CLRALPHA (20_memory.md R76). -/
theorem runEvent_locked {e : Event} {s t : State} (hv : s.avalid = true) (h : runEvent e s = .next t) :
    SameLock s t ∨ (e = .reset ∧ t.avalid = false) ∨ Released t := by
  rcases runEvent_next h with ⟨a, v, -, -, rfl⟩ | ⟨_, _, -, rfl⟩ | ⟨he, rfl⟩ | ⟨op, -, -, hc⟩ | ⟨-, hc⟩
  · exact .inl (sameLock_writeReg (s := idleEdge s) hv (regOf a) v)
  · exact .inl (sameLock_refl s)
  · exact .inr (.inl ⟨he, rfl⟩)
  · exact (complete_locked (s := accept op (idleEdge s)) hv hc).imp_right .inr
  · exact (complete_locked hv hc).imp_right .inr

/-- Settles O26: the event of the step keeps the alphabet, releases it by CLRALPHA, or is a reset, which heads the
agenda. -/
theorem lockedAlphabetIsImmutable : Obligations.LockedAlphabetIsImmutable := by
  unfold Obligations.LockedAlphabetIsImmutable
  intro s t hv hst
  obtain ⟨e, rest, ha, hrun⟩ := step_eq_runEvent s
  rcases runEvent_locked (s := { s with agenda := rest }) hv (hrun.symm.trans hst) with
    ⟨hkeep, hlock⟩ | ⟨rfl, h0⟩ | ⟨h0, hclr⟩
  · exact ⟨fun _ => hlock, fun h0 => absurd (hkeep.symm.trans h0) (by simp [hv])⟩
  · exact ⟨fun h1 => by simp [h0] at h1, fun _ => .inl ⟨rest, by simpa using ha⟩⟩
  · exact ⟨fun h1 => by simp [h0] at h1, fun _ => .inr hclr⟩

/-! The byte order -/

/-- Settles O41: the first byte counts with the power of 256 that the rest of the sequence fills. -/
theorem byteOrderIsBigEndian : Obligations.ByteOrderIsBigEndian := by
  unfold Obligations.ByteOrderIsBigEndian
  intro b
  induction b with
  | nil => rfl
  | cons x xs ih =>
    calc val ((x :: xs).map BitVec.toNat) 256
        = x.toNat * 256 ^ xs.length + val (xs.map BitVec.toNat) 256 := by
          rw [List.map_cons, val_cons, List.length_map]
      _ = x.toNat * 256 ^ xs.length + ∑ i : Fin xs.length, xs[i].toNat * 256 ^ (xs.length - 1 - i.val) := by rw [ih]
      _ = ∑ i : Fin (xs.length + 1), (x :: xs)[i].toNat * 256 ^ (xs.length - i.val) := by
          rw [Fin.sum_univ_succ]
          simp [Nat.sub_sub, Nat.add_comm]

end Sys2Proof.Machine
end

section
/-! SUPPORT. The encodings of 30_encoding.md: a transaction word and its fields, the three bytes it is listed with, and
what the decoder accepts; from these the statements about decoder and encoder. -/

namespace Sys2Proof

/-! A transaction word and its fields (R91) -/

@[simp] theorem xwordOf_we (we : Bool) (a : Addr) (v : Byte) : (xwordOf we a v).getLsbD 18 = we := by
  rw [xwordOf, BitVec.getLsbD_append, BitVec.getLsbD_append]
  simp

@[simp] theorem xwordOf_addr (we : Bool) (a : Addr) (v : Byte) : (xwordOf we a v).extractLsb' 8 10 = a := by
  rw [xwordOf, BitVec.extractLsb'_append_eq_of_le (Nat.le_refl 8)]
  exact BitVec.extractLsb'_append_eq_right

@[simp] theorem xwordOf_wdata (we : Bool) (a : Addr) (v : Byte) : (xwordOf we a v).extractLsb' 0 8 = v :=
  BitVec.extractLsb'_append_eq_right

/-- Every word is the word of its fields. -/
theorem xwordOf_eta (w : XWord) : xwordOf (w.getLsbD 18) (w.extractLsb' 8 10) (w.extractLsb' 0 8) = w := by
  have hwe : BitVec.ofBool (w.getLsbD 18) = w.extractLsb' 18 1 := by
    ext i hi
    obtain rfl : i = 0 := by omega
    simp
  rw [xwordOf, hwe, BitVec.extractLsb'_append_extractLsb'_eq_extractLsb' (show 18 = 8 + 10 from rfl)]
  exact BitVec.extractLsb'_append_extractLsb'

theorem decodeXact_write {w : XWord} (h : w.getLsbD 18 = true) :
    decodeXact w = .wr (w.extractLsb' 8 10) (w.extractLsb' 0 8) := if_pos h

theorem decodeXact_read {w : XWord} (h : w.getLsbD 18 = false) : decodeXact w = .rd (w.extractLsb' 8 10) :=
  if_neg (by rw [h]; decide)

/-- The top bit of a word as a number. -/
theorem getLsbD_18_iff (w : XWord) : w.getLsbD 18 = true ↔ w.toNat / 2 ^ 18 = 1 := by
  have := w.isLt
  rw [BitVec.getLsbD, Nat.testBit_eq_decide_div_mod_eq, decide_eq_true_iff]
  omega

/-- A field of a word as a number. -/
theorem extractLsb'_eq_ofNat (w : XWord) (start len : Nat) :
    w.extractLsb' start len = BitVec.ofNat len (w.toNat / 2 ^ start) := by
  rw [BitVec.extractLsb', Nat.shiftRight_eq_div_pow]

/-- Settles O4: `we` decides between write and read, whose fields are those cut out of the word. -/
theorem transactionWordFields : Obligations.TransactionWordFields := by
  unfold Obligations.TransactionWordFields
  intro w
  have haddr := extractLsb'_eq_ofNat w 8 10
  have hdata : w.extractLsb' 0 8 = BitVec.ofNat 8 w.toNat := by rw [extractLsb'_eq_ofNat, pow_zero, Nat.div_one]
  constructor
  · intro hwrite
    rw [decodeXact_write ((getLsbD_18_iff w).mpr hwrite), haddr, hdata]
  · intro hread
    have hwe : w.getLsbD 18 = false := by
      rw [Bool.eq_false_iff, ne_eq, getLsbD_18_iff, hread]
      decide
    rw [decodeXact_read hwe, haddr]

/-! The three bytes of a transaction word (log 5) -/

/-- A word is put together again from its three bytes. -/
theorem xwordOfBytes_bytes (w : XWord) :
    xwordOfBytes (w.extractLsb' 0 8) (w.extractLsb' 8 8) ((w.extractLsb' 16 3).setWidth 8) = w := by
  rw [xwordOfBytes, BitVec.extractLsb'_setWidth_of_le (by decide), BitVec.extractLsb'_eq_self,
    BitVec.extractLsb'_append_extractLsb'_eq_extractLsb' (show 16 = 8 + 8 from rfl)]
  exact BitVec.extractLsb'_append_extractLsb'

/-- Bytes without surplus bits are the bytes of the word they form. -/
theorem bytesOfXWord_xwordOfBytes {lo mid hi : Byte} (h : hi.toNat < 8) :
    bytesOfXWord (xwordOfBytes lo mid hi) = [lo, mid, hi] := by
  have hlo : (xwordOfBytes lo mid hi).extractLsb' 0 8 = lo := BitVec.extractLsb'_append_eq_right
  have hmid : (xwordOfBytes lo mid hi).extractLsb' 8 8 = mid := by
    rw [xwordOfBytes, BitVec.extractLsb'_append_eq_of_le (Nat.le_refl 8)]
    exact BitVec.extractLsb'_append_eq_right
  have hhi : (xwordOfBytes lo mid hi).extractLsb' 16 3 = hi.extractLsb' 0 3 := by
    rw [xwordOfBytes, BitVec.extractLsb'_append_eq_of_le (by decide), BitVec.extractLsb'_append_eq_of_le (by decide)]
    exact BitVec.extractLsb'_eq_self
  have hsurplus : (hi.extractLsb' 0 3).setWidth 8 = hi := by
    apply BitVec.eq_of_toNat_eq
    simp
    omega
  rw [bytesOfXWord, hlo, hmid, hhi, hsurplus]

/-- The first byte is `wdata`; the other two do not depend on it. -/
theorem bytesOfXWord_xwordOf (we : Bool) (a : Addr) (v : Byte) :
    bytesOfXWord (xwordOf we a v) =
      [v, (BitVec.ofBool we ++ a).extractLsb' 0 8, ((BitVec.ofBool we ++ a).extractLsb' 8 3).setWidth 8] := by
  rw [bytesOfXWord, xwordOf_wdata, xwordOf, BitVec.extractLsb'_append_eq_of_le (start := 8) (Nat.le_refl 8),
    BitVec.extractLsb'_append_eq_of_le (start := 16) (by decide)]

/-! The decoder -/

theorem decode_three {lo mid hi : Byte} (h : hi.toNat < 8) :
    decode [lo, mid, hi] = .ok (decodeXact (xwordOfBytes lo mid hi)) := if_pos h

/-- The bytes of a word decode to what the word stands for. -/
theorem decode_bytesOfXWord (w : XWord) : decode (bytesOfXWord w) = .ok (decodeXact w) := by
  have hhi : ((w.extractLsb' 16 3).setWidth 8).toNat < 8 := by
    simpa [wellFormed, bytesOfXWord] using Laws.Encoding.wellFormed_bytesOfXWord w
  rw [bytesOfXWord, decode_three hhi, xwordOfBytes_bytes]

/-- Everything the decoder accepts: a command byte of the map, or three bytes without surplus bits. -/
theorem decode_eq_ok_iff (bs : List Byte) (i : Instr) :
    decode bs = .ok i ↔ (∃ op, bs = [op] ∧ decodeCmd op = .ok i) ∨
      ∃ lo mid hi, bs = [lo, mid, hi] ∧ hi.toNat < 8 ∧ decodeXact (xwordOfBytes lo mid hi) = i := by
  match bs with
  | [op] => simp [decode]
  | [lo, mid, hi] =>
    by_cases h : hi.toNat < 8
    · simp [decode_three, h]
    · simp [decode, h]
  | [] | [_, _] | _ :: _ :: _ :: _ :: _ => simp [decode]

/-- The codes below the reserved ones. -/
theorem toNat_le_four_iff (op : Byte) :
    op.toNat ≤ 4 ↔ op = 0x00 ∨ op = 0x01 ∨ op = 0x02 ∨ op = 0x03 ∨ op = 0x04 := by
  bv_omega

/-- The command map row by row (R93). -/
theorem decodeCmd_eq_ok_iff (op : Byte) (i : Instr) :
    decodeCmd op = .ok i ↔
      op = 0x00 ∧ i = .ack ∨ op = 0x01 ∧ i = .setalpha ∨ op = 0x02 ∧ i = .encode ∨ op = 0x03 ∧ i = .decode ∨
        op = 0x04 ∧ i = .clralpha := by
  by_cases h4 : op.toNat ≤ 4
  · obtain rfl | rfl | rfl | rfl | rfl := (toNat_le_four_iff op).mp h4
    all_goals simp [decodeCmd, eq_comm]
  · refine iff_of_false (by simp [Machine.decodeCmd_reserved (not_le.mp h4)]) fun h => h4 ?_
    exact (toNat_le_four_iff op).mpr (h.imp And.left (.imp And.left (.imp And.left (.imp And.left And.left))))

/-- The encoder writes the code that the command map reads. -/
theorem encode_of_decodeCmd {op : Byte} {i : Instr} (h : decodeCmd op = .ok i) : encode i = [op] := by
  obtain ⟨rfl, rfl⟩ | ⟨rfl, rfl⟩ | ⟨rfl, rfl⟩ | ⟨rfl, rfl⟩ | ⟨rfl, rfl⟩ := (decodeCmd_eq_ok_iff op i).mp h
  all_goals rfl

/-- The command map answers exactly for the codes up to 0x04 (R93, R94). -/
theorem exists_decodeCmd_iff (op : Byte) : (∃ i, decodeCmd op = .ok i) ↔ wellFormedCmd op = true := by
  rw [wellFormedCmd, decide_eq_true_eq, toNat_le_four_iff]
  simp [decodeCmd_eq_ok_iff, exists_or]

/-! The statements -/

/-- Settles O1: the bytes of a transaction give back its word, and the word its fields; a command gives back its code. -/
theorem decodeOfEncode : Obligations.DecodeOfEncode := by
  unfold Obligations.DecodeOfEncode
  intro i
  cases i with
  | wr a v => rw [encode, decode_bytesOfXWord, decodeXact_write (xwordOf_we ..), xwordOf_addr, xwordOf_wdata]
  | rd a => rw [encode, decode_bytesOfXWord, decodeXact_read (xwordOf_we ..), xwordOf_addr]
  | ack | setalpha | encode | decode | clralpha => rfl

/-- Settles O2: accepted bytes are the bytes of the word of their fields; of a read's fields only `wdata` is lost, which is
the first byte. -/
theorem encodeOfDecode : Obligations.EncodeOfDecode := by
  unfold Obligations.EncodeOfDecode
  intro bs i h
  obtain ⟨op, rfl, hop⟩ | ⟨lo, mid, hi, rfl, hhi, rfl⟩ := (decode_eq_ok_iff bs i).mp h
  · exact .inl (encode_of_decodeCmd hop)
  · have hbytes := bytesOfXWord_xwordOfBytes (lo := lo) (mid := mid) hhi
    rw [← xwordOf_eta (xwordOfBytes lo mid hi)] at hbytes
    cases hwe : (xwordOfBytes lo mid hi).getLsbD 18 with
    | true =>
      rw [hwe] at hbytes
      rw [decodeXact_write hwe]
      exact .inl hbytes
    | false =>
      rw [hwe, bytesOfXWord_xwordOf] at hbytes
      obtain ⟨-, hrest⟩ := List.cons.inj hbytes
      refine .inr ⟨_, lo, mid, hi, decodeXact_read hwe, rfl, ?_⟩
      rw [decodeXact_read hwe, encode, bytesOfXWord_xwordOf, hrest]

/-- Settles O3: by the number of bytes; one byte is accepted by the command map, three by their surplus bits. -/
theorem decodeAcceptsExactlyWellFormed : Obligations.DecodeAcceptsExactlyWellFormed := by
  unfold Obligations.DecodeAcceptsExactlyWellFormed
  intro bs
  match bs with
  | [op] => exact exists_decodeCmd_iff op
  | [lo, mid, hi] => simp [decode_eq_ok_iff, wellFormed]
  | [] | [_, _] | _ :: _ :: _ :: _ :: _ => simp [decode_eq_ok_iff, wellFormed]

/-- Settles O5: the rows of the map by evaluation, all other codes by `decodeCmd_reserved`. -/
theorem commandMap : Obligations.CommandMap :=
  ⟨rfl, rfl, rfl, rfl, rfl, fun _ => Machine.decodeCmd_reserved⟩

/-- Settles O6: by evaluation of the decoder on the twelve words. -/
theorem specWordsDecode : Obligations.SpecWordsDecode :=
  ⟨rfl, rfl, rfl, rfl, rfl, rfl, rfl, rfl, rfl, rfl, rfl, rfl⟩

end Sys2Proof
end

section
/-! SUPPORT. `STATUS` as read: its bits one by one, its low bits as a number, and the flags that occur together. -/

namespace Sys2Proof.Machine

/-- Bits 4 to 0 of `STATUS` (30_encoding.md R95). -/
theorem statusByte_bits (s : State) :
    (statusByte s).getLsbD 0 = s.busy ∧ (statusByte s).getLsbD 1 = s.done ∧ (statusByte s).getLsbD 2 = s.err ∧
      (statusByte s).getLsbD 3 = s.avalid ∧ (statusByte s).getLsbD 4 = s.accerr := by
  simp only [statusByte, BitVec.getLsbD_append, BitVec.getLsbD_ofBool]
  simp

theorem toNat_statusByte (s : State) :
    (statusByte s).toNat =
      16 * s.accerr.toNat + 8 * s.avalid.toNat + 4 * s.err.toNat + 2 * s.done.toNat + s.busy.toNat := by
  have := s.accerr.toNat_le
  have := s.avalid.toNat_le
  have := s.err.toNat_le
  have := s.done.toNat_le
  have := s.busy.toNat_le
  rw [statusByte_eq, BitVec.toNat_ofNat]
  omega

/-- The combinations of ERR, DONE and BUSY that the invariants leave (10_state.md R43 items 1 and 2): a command in flight,
a failed one, a successful one, none. -/
theorem inv_flags {s : State} (h : Inv s) :
    (s.err = false ∧ s.done = false ∧ s.busy = true) ∨ (s.err = true ∧ s.done = true ∧ s.busy = false) ∨
      (s.err = false ∧ s.done = true ∧ s.busy = false) ∨ (s.err = false ∧ s.done = false ∧ s.busy = false) := by
  obtain ⟨hquiet, hdone, -⟩ := h
  cases hb : s.busy with
  | true =>
    obtain ⟨hd, he, -⟩ := hquiet hb
    exact .inl ⟨he, hd, rfl⟩
  | false =>
    cases he : s.err with
    | true => exact .inr (.inl ⟨rfl, hdone he, rfl⟩)
    | false => cases s.done with
      | true => exact .inr (.inr (.inl ⟨rfl, rfl, rfl⟩))
      | false => exact .inr (.inr (.inr ⟨rfl, rfl, rfl⟩))

/-- Settles O18: the bits by `statusByte_bits`, the legal values by the flags that occur together. -/
theorem statusByteIsLegal : Obligations.StatusByteIsLegal := by
  unfold Obligations.StatusByteIsLegal
  intro s h
  obtain ⟨hbusy, hdone, herr, havalid, haccerr⟩ := statusByte_bits s
  have hval := toNat_statusByte s
  have := s.accerr.toNat_le
  have := s.avalid.toNat_le
  refine ⟨hbusy, hdone, herr, havalid, haccerr, ?_⟩
  obtain ⟨he, hd, hb⟩ | ⟨he, hd, hb⟩ | ⟨he, hd, hb⟩ | ⟨he, hd, hb⟩ := inv_flags h
  all_goals
    simp only [he, hd, hb, Bool.toNat_true, Bool.toNat_false] at hval
    omega

end Sys2Proof.Machine
end

section
/-! SUPPORT. The alphabet commands of 40_alphabet.md: `idx`, the first duplicate as the least second occurrence, and the
outcomes of SETALPHA and CLRALPHA. -/

namespace Sys2Proof.Machine

/-! `idx` (R121) -/

theorem idx_eq_some_iff {A : List Byte} (hA : A.Nodup) (c : Byte) (i : Nat) : idx A c = some i ↔ A[i]? = some c := by
  rw [idx, List.idxOf?_eq_some_iff, List.getElem?_eq_some_iff]
  constructor
  · rintro ⟨hi, hc, -⟩
    exact ⟨hi, hc⟩
  · rintro ⟨hi, hc⟩
    exact ⟨hi, hc, fun j hj h => hj.ne ((hA.getElem_inj_iff).mp (h.trans hc.symm))⟩

theorem idx_eq_none_iff (A : List Byte) (c : Byte) : idx A c = none ↔ c ∉ A := List.idxOf?_eq_none_iff

/-- Settles O36: without repeats the position of a symbol is its only one. -/
theorem idxFindsTheSymbol : Obligations.IdxFindsTheSymbol := by
  unfold Obligations.IdxFindsTheSymbol
  exact fun A c hA => ⟨idx_eq_some_iff hA c, idx_eq_none_iff A c⟩

/-! The first duplicate (R126) -/

/-- The scan from index `k` stops at the first entry that stands among those seen before it or earlier in the list: it finds
nothing in the entries before that one. -/
theorem firstDupFrom_eq_some_iff (k : Nat) (seen l : List Byte) (c : Byte) (j : Nat) :
    firstDupFrom k seen l = some (c, j) ↔
      ∃ i, j = k + i ∧ l[i]? = some c ∧ (c ∈ seen ∨ c ∈ l.take i) ∧ firstDupFrom k seen (l.take i) = none := by
  induction l generalizing k seen with
  | nil => simp [firstDupFrom]
  | cons x rest ih =>
    by_cases hx : x ∈ seen
    · simp only [firstDupFrom, List.contains_iff_mem, hx, if_true]
      constructor
      · intro h
        cases h
        exact ⟨0, rfl, rfl, .inl hx, rfl⟩
      · rintro ⟨_ | i, rfl, hc, -, hnone⟩
        · cases hc
          rfl
        · simp [firstDupFrom, hx] at hnone
    · simp only [firstDupFrom, List.contains_iff_mem, hx, if_false, ih]
      constructor
      · rintro ⟨i, rfl, hc, hmem, hnone⟩
        refine ⟨i + 1, by omega, hc, ?_, by simpa [firstDupFrom, hx] using hnone⟩
        simpa [or_assoc, or_left_comm] using hmem
      · rintro ⟨_ | i, rfl, hc, hmem, hnone⟩
        · cases hc
          simp [hx] at hmem
        · refine ⟨i, by omega, hc, ?_, by simpa [firstDupFrom, hx] using hnone⟩
          simpa [or_assoc, or_left_comm] using hmem

theorem firstDup_eq_some_iff (l : List Byte) (c : Byte) (j : Nat) :
    firstDup l = some (c, j) ↔ l[j]? = some c ∧ c ∈ l.take j ∧ (l.take j).Nodup := by
  have h := firstDupFrom_eq_some_iff 0 [] l c j
  simpa [firstDup, ← firstDup_eq_none_iff] using h

/-- Settles O37: the scan's stop and its silence, from the empty list of symbols seen. -/
theorem firstDuplicateIsTheLeast : Obligations.FirstDuplicateIsTheLeast := by
  unfold Obligations.FirstDuplicateIsTheLeast
  exact fun l => ⟨firstDup_eq_some_iff l, firstDup_eq_none_iff l⟩

/-! The candidate alphabet as entries of the table (30_encoding.md R101) -/

theorem mem_take_toList_iff {n : Nat} (v : Vector Byte n) (k : Nat) (c : Byte) :
    c ∈ v.toList.take k ↔ ∃ i : Fin n, i.val < k ∧ v[i] = c := by
  simp only [List.mem_take_iff_getElem, Vector.length_toList, lt_min_iff, Vector.getElem_toList]
  constructor
  · rintro ⟨i, ⟨hk, hn⟩, hc⟩
    exact ⟨⟨i, hn⟩, hk, hc⟩
  · rintro ⟨i, hk, hc⟩
    exact ⟨i, ⟨hk, i.isLt⟩, hc⟩

theorem nodup_take_toList_iff {n : Nat} (v : Vector Byte n) (k : Nat) :
    (v.toList.take k).Nodup ↔ ∀ i j : Fin n, i < j → j.val < k → v[i] ≠ v[j] := by
  simp only [List.Nodup, List.pairwise_iff_getElem, List.length_take, Vector.length_toList, lt_min_iff,
    List.getElem_take, Vector.getElem_toList]
  constructor
  · exact fun h i j hij hj => h i j ⟨lt_trans (Fin.lt_def.mp hij) hj, i.isLt⟩ ⟨hj, j.isLt⟩ hij
  · exact fun h i j hi hj hij => h ⟨i, hi.2⟩ ⟨j, hj.2⟩ hij hj.1

theorem getElem?_candidate {s : State} {j : Fin 255} (hj : j.val < s.alen.toNat) :
    (candidate s)[j.val]? = some s.alpha[j] := by
  simp [candidate, hj]

theorem take_candidate {s : State} {j : Nat} (hj : j ≤ s.alen.toNat) :
    (candidate s).take j = s.alpha.toList.take j := by
  rw [candidate, List.take_take, min_eq_left hj]

/-- The first duplicate of the candidate, in terms of the table's entries (R126). -/
theorem firstDup_candidate_eq_some {s : State} {j : Fin 255} (hj : j.val < s.alen.toNat)
    (hrep : ∃ i : Fin 255, i < j ∧ s.alpha[i] = s.alpha[j])
    (hleast : ∀ j' : Fin 255, j' < j → ∀ i : Fin 255, i < j' → s.alpha[i] ≠ s.alpha[j']) :
    firstDup (candidate s) = some (s.alpha[j], j.val) := by
  rw [firstDup_eq_some_iff, take_candidate hj.le, mem_take_toList_iff, nodup_take_toList_iff]
  exact ⟨getElem?_candidate hj, hrep, fun i j' hij hj' => hleast j' hj' i hij⟩

theorem firstDup_candidate_eq_none_iff (s : State) :
    firstDup (candidate s) = none ↔ ∀ i j : Fin 255, i < j → j.val < s.alen.toNat → s.alpha[i] ≠ s.alpha[j] := by
  rw [firstDup_eq_none_iff, candidate, nodup_take_toList_iff]

/-! Completions while no alphabet is locked: SETALPHA's, case by case (R122), and the failures of ENCODE and DECODE -/

section Unlocked

variable {s : State} (hv : s.avalid = false)
include hv

theorem setalphaComplete_tooLong (h : s.alen.toNat > 255) :
    setalphaComplete s = .next (raise .tooLong 0x00 0x00 s) := by
  simp [setalphaComplete, hv, h]

theorem setalphaComplete_tooShort (h : s.alen.toNat < 2) :
    setalphaComplete s = .next (raise .tooShort 0x00 0x00 s) := by
  simp [setalphaComplete, hv, h, show ¬ s.alen.toNat > 255 by omega]

theorem setalphaComplete_ambiguous (h2 : 2 ≤ s.alen.toNat) (h255 : s.alen.toNat ≤ 255) {c : Byte} {j : Nat}
    (hd : firstDup (candidate s) = some (c, j)) :
    setalphaComplete s = .next (raise .ambiguous c (BitVec.ofNat 8 j) s) := by
  simp [setalphaComplete, hv, hd, h2.not_gt, h255.not_gt]

theorem setalphaComplete_locks (h2 : 2 ≤ s.alen.toNat) (h255 : s.alen.toNat ≤ 255)
    (hd : firstDup (candidate s) = none) :
    setalphaComplete s = .next (succeed { s with avalid := true, base := BitVec.ofNat 8 s.alen.toNat }) := by
  simp [setalphaComplete, hv, hd, h2.not_gt, h255.not_gt]

theorem encodeComplete_unlocked : encodeComplete s = .next (encFail .noAlpha s) := if_pos (by simp [hv])

theorem decodeComplete_unlocked : decodeComplete s = .next (decFail .noAlpha 0x00 0x00 s) := if_pos (by simp [hv])

end Unlocked

/-! Commands issued while idle -/

section Issued

variable {s : State} (hb : s.busy = false)
include hb

theorem exec_setalpha_idle : exec .setalpha s = setalphaComplete (accept 0x01 (idleEdge s)) := issue_idle hb _ _

theorem exec_encode_idle : exec .encode s = encodeComplete (accept 0x02 (idleEdge s)) := issue_idle hb _ _

theorem exec_decode_idle : exec .decode s = decodeComplete (accept 0x03 (idleEdge s)) := issue_idle hb _ _

theorem exec_clralpha_idle : exec .clralpha s = .next { succeeded 0x04 s with avalid := false, base := 0x00 } :=
  issue_idle hb _ _

end Issued

/-- Settles O38: each clause is one case of the completion, after acceptance; the entries of the table give the scan's
result. -/
theorem setalphaCommand : Obligations.SetalphaCommand := by
  unfold Obligations.SetalphaCommand
  intro s hb
  rw [exec_setalpha_idle hb]
  refine ⟨fun hv => ?_, fun hv hlong => ?_, fun hv hshort => ?_, fun hv h2 h255 j hj hrep hleast => ?_,
    fun hv h2 h255 hdistinct => ?_⟩
  · exact setalphaComplete_locked hv
  · exact setalphaComplete_tooLong hv hlong
  · exact setalphaComplete_tooShort hv hshort
  · exact setalphaComplete_ambiguous (s := accept 0x01 (idleEdge s)) hv h2 h255
      (firstDup_candidate_eq_some hj hrep hleast)
  · exact setalphaComplete_locks hv h2 h255 ((firstDup_candidate_eq_none_iff _).mpr hdistinct)

/-- Settles O39: the released state is idle and unlocked, where ENCODE and DECODE fail with `E_NOALPHA`. -/
theorem clralphaCommand : Obligations.ClralphaCommand := by
  unfold Obligations.ClralphaCommand
  intro s hb
  refine ⟨_, exec_clralpha_idle hb, rfl, ?_, ?_⟩
  · exact ⟨_, (exec_encode_idle rfl).trans (encodeComplete_unlocked rfl), rfl, rfl⟩
  · exact ⟨_, (exec_decode_idle rfl).trans (decodeComplete_unlocked rfl), rfl, rfl⟩

end Sys2Proof.Machine
end

section
/-! SUPPORT. `enc` through the value of its bytes: how many digits a value has, what the leading zero bytes leave, and
the encoding as zero symbols and digits (41_encode.md R140). -/

namespace Sys2Proof.Machine

/-! Values and the number of their digits -/

/-- A value takes at most `k` digits exactly when it is below `B ^ k`. -/
theorem length_digits_le_iff {B : Nat} (hB : 2 ≤ B) (V k : Nat) : (digits V B).length ≤ k ↔ V < B ^ k := by
  refine digits_induction hB (P := fun V d => ∀ k, d.length ≤ k ↔ V < B ^ k) (fun k => ?_) (fun V hV ih k => ?_) V k
  · simpa using Nat.pow_pos (by omega : 0 < B)
  · cases k with
    | zero => simp [hV]
    | succ k =>
      rw [List.length_append, List.length_singleton, Nat.add_le_add_iff_right, ih, pow_succ,
        Nat.div_lt_iff_lt_mul (by omega)]

/-! The value of a byte sequence -/

/-- A byte sequence as one unsigned big-endian integer (20_memory.md R68). -/
def byteVal (b : List Byte) : Nat := val (b.map BitVec.toNat) 256

theorem byteVal_cons (x : Byte) (xs : List Byte) : byteVal (x :: xs) = x.toNat * 256 ^ xs.length + byteVal xs := by
  rw [byteVal, List.map_cons, val_cons, List.length_map, byteVal]

theorem lt_of_mem_map_toNat (b : List Byte) : ∀ n ∈ b.map BitVec.toNat, n < 256 :=
  List.forall_mem_map.mpr fun x _ => x.isLt

theorem byteVal_lt_pow (b : List Byte) : byteVal b < 256 ^ b.length := by
  simpa [byteVal] using val_lt_pow (lt_of_mem_map_toNat b)

/-- Leading zero bytes add nothing to the value, so the rest of R140 has the value of the whole sequence. -/
theorem byteVal_drop_lead (b : List Byte) : byteVal (b.drop (lead b 0x00)) = byteVal b := by
  induction b with
  | nil => rfl
  | cons x xs ih =>
    by_cases hx : x = 0x00
    · subst hx
      simpa [byteVal_cons] using ih
    · rw [lead_cons_ne hx, List.drop_zero]

theorem byteVal_lt_pow_sub_lead (b : List Byte) : byteVal b < 256 ^ (b.length - lead b 0x00) := by
  have h := byteVal_lt_pow (b.drop (lead b 0x00))
  rwa [byteVal_drop_lead, List.length_drop] at h

/-- The bytes after the leading zeros are the minimal base-256 digits of the value. -/
theorem digits_byteVal (b : List Byte) : digits (byteVal b) 256 = (b.drop (lead b 0x00)).map BitVec.toNat := by
  rw [← byteVal_drop_lead, byteVal, ← eq_digits_val (by decide) (lt_of_mem_map_toNat _)]
  rw [List.head?_map, ne_eq, Option.map_eq_some_iff]
  rintro ⟨x, hx, h0⟩
  exact head?_drop_lead b 0x00 (hx.trans (congrArg some (BitVec.eq_of_toNat_eq h0)))

theorem byteVal_eq_zero_iff (b : List Byte) : byteVal b = 0 ↔ lead b 0x00 = b.length := by
  have hle := lead_le_length b 0x00
  rw [← digits_eq_nil_iff (B := 256) (by decide), digits_byteVal, List.map_eq_nil_iff, List.drop_eq_nil_iff]
  omega

/-- The leading zero bytes and the value fix the sequence. -/
theorem eq_of_lead_of_byteVal {b b' : List Byte} (hl : lead b 0x00 = lead b' 0x00) (hv : byteVal b = byteVal b') :
    b = b' := by
  have hd : (b.drop (lead b 0x00)).map BitVec.toNat = (b'.drop (lead b' 0x00)).map BitVec.toNat := by
    rw [← digits_byteVal, ← digits_byteVal, hv]
  have hdrop := List.map_injective_iff.mpr (fun _ _ => BitVec.eq_of_toNat_eq) hd
  rw [← replicate_lead_append_drop b 0x00, ← replicate_lead_append_drop b' 0x00, hdrop, hl]

/-- Which multiples of the first byte's weight the value reaches, by the first byte alone. -/
theorem mul_pow_le_byteVal_cons_iff (k : Nat) (x : Byte) (xs : List Byte) :
    k * 256 ^ xs.length ≤ byteVal (x :: xs) ↔ k ≤ x.toNat := by
  have hlt := byteVal_lt_pow xs
  rw [byteVal_cons]
  constructor
  · intro h
    have : k * 256 ^ xs.length < (x.toNat + 1) * 256 ^ xs.length := by rw [Nat.succ_mul]; omega
    exact Nat.lt_succ_iff.mp (Nat.lt_of_mul_lt_mul_right this)
  · exact fun h => Nat.le_add_right_of_le (Nat.mul_le_mul_right _ h)

/-! `enc` (R140) -/

theorem enc_eq (A b : List Byte) :
    enc A b = List.replicate (lead b 0x00) (A.getD 0 0x00) ++
      (digits (byteVal b) A.length).map fun i => A.getD i 0x00 := by
  rw [← byteVal_drop_lead]
  rfl

theorem length_enc (A b : List Byte) : (enc A b).length = lead b 0x00 + (digits (byteVal b) A.length).length := by
  simp [enc_eq]

/-- Settles O42: a digit list that does not begin with 0 is `digits` of its value. -/
theorem encIsZeroSymbolsThenMinimalDigits : Obligations.EncIsZeroSymbolsThenMinimalDigits := by
  unfold Obligations.EncIsZeroSymbolsThenMinimalDigits
  intro A b d hA hd h0 hval
  obtain ⟨h2, -, -⟩ := (isAlphabet_iff A).mp hA
  rw [enc, ← hval, ← eq_digits_val h2 hd h0]

/-! The length of `enc` (R142 to R144) -/

section Length

variable {A : List Byte} (hA : isAlphabet A = true)
include hA

theorem two_le_length_of_isAlphabet : 2 ≤ A.length := ((isAlphabet_iff A).mp hA).1

theorem length_enc_le_iff (b : List Byte) (k : Nat) :
    (enc A b).length ≤ lead b 0x00 + k ↔ byteVal b < A.length ^ k := by
  rw [length_enc, Nat.add_le_add_iff_left, length_digits_le_iff (two_le_length_of_isAlphabet hA)]

/-- If `m` digits hold a byte, `m` symbols for each byte after the leading zeros are enough. -/
theorem length_enc_le_of_pow {m : Nat} (hm : 256 ≤ A.length ^ m) (b : List Byte) :
    (enc A b).length ≤ lead b 0x00 + m * (b.length - lead b 0x00) := by
  rw [length_enc_le_iff hA, pow_mul]
  exact (byteVal_lt_pow_sub_lead b).trans_le (Nat.pow_le_pow_left hm _)

theorem length_enc_le (b : List Byte) : (enc A b).length ≤ lead b 0x00 + 8 * (b.length - lead b 0x00) :=
  length_enc_le_of_pow hA (Nat.pow_le_pow_left (two_le_length_of_isAlphabet hA) 8) b

theorem lead_lt_length_enc_iff (b : List Byte) : lead b 0x00 < (enc A b).length ↔ lead b 0x00 < b.length := by
  have hle := lead_le_length b 0x00
  have h := length_enc_le_iff hA b 0
  have hz := byteVal_eq_zero_iff b
  rw [pow_zero] at h
  omega

/-- Eight symbols for every byte: the first byte is then at least the seventh power of the base, which leaves base 2 and
a set top bit. -/
theorem base_two_of_length_enc {b : List Byte} (hb : b ≠ []) (h : (enc A b).length = 8 * b.length) :
    A.length = 2 ∧ lead b 0x00 = 0 ∧ 0x80 ≤ (b.getD 0 0x00).toNat := by
  have h2 := two_le_length_of_isAlphabet hA
  have hz : lead b 0x00 = 0 := by
    have hmax := length_enc_le hA b
    have hle := lead_le_length b 0x00
    omega
  obtain ⟨x, xs, rfl⟩ := List.exists_cons_of_ne_nil hb
  have hmany : ¬ (enc A (x :: xs)).length ≤ lead (x :: xs) 0x00 + (8 * xs.length + 7) := by
    rw [h, hz, List.length_cons]
    omega
  have hpow : A.length ^ 7 ≤ x.toNat := by
    rw [length_enc_le_iff hA, not_lt, pow_add, pow_mul, Nat.mul_comm] at hmany
    rw [← mul_pow_le_byteVal_cons_iff _ x xs]
    exact (Nat.mul_le_mul_left _ (Nat.pow_le_pow_left (Nat.pow_le_pow_left h2 8) _)).trans hmany
  have hA2 : A.length = 2 := by
    by_contra hne
    have h3 : 3 ^ 7 ≤ A.length ^ 7 := Nat.pow_le_pow_left (by omega) 7
    have hx := x.isLt
    omega
  rw [hA2] at hpow
  exact ⟨hA2, hz, hpow⟩

end Length

/-- Settles O44: the bounds by the number of digits a value below `256 ^ (n - z)` takes; the bound is reached only where
the first byte is at least the seventh power of the base. -/
theorem encLengthBound : Obligations.EncLengthBound := by
  unfold Obligations.EncLengthBound
  intro A b hA
  have hmax := length_enc_le hA b
  have hle := lead_le_length b 0x00
  have hmin := length_enc A b
  exact ⟨hmax, by omega, by omega, by omega, lead_lt_length_enc_iff hA b, base_two_of_length_enc hA⟩

/-- Settles O45: an empty result has no zero symbol and no digit. -/
theorem encOfEmptyOnly : Obligations.EncOfEmptyOnly := by
  unfold Obligations.EncOfEmptyOnly
  intro A b hA
  have hpos := lead_lt_length_enc_iff hA b
  have hmin := length_enc A b
  have hle := lead_le_length b 0x00
  rw [← List.length_eq_zero_iff, ← List.length_eq_zero_iff]
  omega

/-- Where sixteen bytes in base 4 take more than `60 + j` symbols: the fifteen bytes after the first take `60` digits,
and a first byte of 0x00 leaves at most 61 symbols. -/
theorem lt_length_enc_base_four_iff {A : List Byte} (hA : isAlphabet A = true) (h4 : A.length = 4) (x : Byte)
    {xs : List Byte} (hxs : xs.length = 15) {j : Nat} (hj : x = 0x00 → 1 ≤ j) :
    60 + j < (enc A (x :: xs)).length ↔ 4 ^ j ≤ x.toNat := by
  by_cases hx : x = 0x00
  · have hj := hj hx
    subst hx
    have hmax := length_enc_le_of_pow hA (m := 4) (by rw [h4]; decide) (0x00 :: xs)
    rw [lead_cons_self, List.length_cons, hxs] at hmax
    have hlead := lead_le_length xs 0x00
    have hpos : 0 < 4 ^ j := Nat.pow_pos (by decide)
    have hzero : (0x00 : Byte).toNat = 0 := rfl
    omega
  · have hle := length_enc_le_iff hA (x :: xs) (60 + j)
    have hpow : 4 ^ (60 + j) = 4 ^ j * 256 ^ xs.length := by
      rw [pow_add, hxs]
      ring
    rw [lead_cons_ne hx, h4, hpow, Nat.zero_add] at hle
    rw [← not_le, hle, not_lt, mul_pow_le_byteVal_cons_iff]

/-- Settles O46: the thresholds of the first byte at 61 to 64 symbols, and none above. -/
theorem baseFourLengths : Obligations.BaseFourLengths := by
  unfold Obligations.BaseFourLengths
  intro A b hA h4 hb
  obtain ⟨x, xs, rfl⟩ := List.exists_cons_of_length_pos (by omega : 0 < b.length)
  have hxs : xs.length = 15 := by simpa using hb
  have over60 : x ≠ 0x00 → (60 + 0 < _ ↔ _) := fun hx => lt_length_enc_base_four_iff hA h4 x hxs (absurd · hx)
  have over61 := lt_length_enc_base_four_iff hA h4 x hxs (j := 1) fun _ => by decide
  have over62 := lt_length_enc_base_four_iff hA h4 x hxs (j := 2) fun _ => by decide
  have over63 := lt_length_enc_base_four_iff hA h4 x hxs (j := 3) fun _ => by decide
  have over64 := lt_length_enc_base_four_iff hA h4 x hxs (j := 4) fun _ => by decide
  have hx := x.isLt
  have hx0 : x.toNat ≠ 0 → x ≠ 0x00 := by
    rintro h rfl
    exact h rfl
  rw [List.getD_cons_zero]
  refine ⟨by omega, by omega, by omega, fun h => ?_⟩
  have := over60 (hx0 (by omega))
  omega

/-! Reading `enc` back (R147) -/

section Symbols

variable {A : List Byte} (hA : isAlphabet A = true)
include hA

theorem idx_getD {i : Nat} (hi : i < A.length) : idx A (A.getD i 0x00) = some i := by
  obtain ⟨-, -, hn⟩ := (isAlphabet_iff A).mp hA
  rw [idx_eq_some_iff hn, List.getD_eq_getElem _ _ hi, List.getElem?_eq_getElem hi]

/-- The symbols of digits are read back as the digits. -/
theorem map_idx_map_getD {d : List Nat} (hd : ∀ x ∈ d, x < A.length) :
    (d.map fun i => A.getD i 0x00).map (fun c => (idx A c).getD 0) = d := by
  rw [List.map_map, List.map_congr_left (g := id) fun i hi => ?_, List.map_id]
  exact congrArg (Option.getD · 0) (idx_getD hA (hd i hi))

theorem map_getD_inj {d e : List Nat} (hd : ∀ x ∈ d, x < A.length) (he : ∀ x ∈ e, x < A.length)
    (h : (d.map fun i => A.getD i 0x00) = e.map fun i => A.getD i 0x00) : d = e := by
  rw [← map_idx_map_getD hA hd, h, map_idx_map_getD hA he]

/-- Digits that do not begin with 0 give symbols that do not begin with the zero symbol. -/
theorem lead_map_getD {d : List Nat} (hd : ∀ x ∈ d, x < A.length) (h0 : d.head? ≠ some 0) :
    lead (d.map fun i => A.getD i 0x00) (A.getD 0 0x00) = 0 := by
  have h2 := two_le_length_of_isAlphabet hA
  cases d with
  | nil => rfl
  | cons i d =>
    refine lead_cons_ne (fun hi => h0 ?_) _
    have hidx := idx_getD hA (hd i List.mem_cons_self)
    exact hidx.symm.trans ((congrArg (idx A) hi).trans (idx_getD hA (by omega)))

theorem lead_enc (b : List Byte) : lead (enc A b) (A.getD 0 0x00) = lead b 0x00 := by
  have h2 := two_le_length_of_isAlphabet hA
  rw [enc_eq, lead_replicate_append, lead_map_getD hA (lt_of_mem_digits h2 _) (head?_digits_ne_zero h2 _), Nat.add_zero]

theorem enc_inj {b b' : List Byte} (h : enc A b = enc A b') : b = b' := by
  have h2 := two_le_length_of_isAlphabet hA
  have hl : lead b 0x00 = lead b' 0x00 := by rw [← lead_enc hA b, h, lead_enc hA b']
  rw [enc_eq, enc_eq, hl] at h
  have hd := map_getD_inj hA (lt_of_mem_digits h2 _) (lt_of_mem_digits h2 _) (List.append_cancel_left h)
  refine eq_of_lead_of_byteVal hl ?_
  rw [← val_digits h2 (byteVal b), hd, val_digits h2]

end Symbols

/-- Settles O47: the digits' symbols do not begin with the zero symbol, and the digits are read back from them. -/
theorem encKeepsLeadAndIsInjective : Obligations.EncKeepsLeadAndIsInjective := by
  unfold Obligations.EncKeepsLeadAndIsInjective
  exact fun A hA => ⟨lead_enc hA, fun b b' => enc_inj hA⟩

end Sys2Proof.Machine
end

section
/-! SUPPORT. The byte-wise ENCODE of 41_encode.md R145: its long division is division, its passes produce the digits. -/

namespace Sys2Proof.Machine

/-! One long division -/

theorem length_longDiv (B r : Nat) (W : List Nat) : (longDiv B r W).1.length = W.length := by
  induction W generalizing r with
  | nil => rfl
  | cons w ws ih => exact congrArg (· + 1) (ih _)

theorem longDiv_remainder_lt {B r : Nat} (hr : r < B) (W : List Nat) : (longDiv B r W).2 < B := by
  induction W generalizing r with
  | nil => exact hr
  | cons w ws ih => exact ih (Nat.mod_lt _ (by omega))

/-- A remainder below `B` and one more byte are below `B * 256`, so the quotient is a byte. -/
theorem longDiv_quotient_le {B r : Nat} (hr : r < B) {W : List Nat} (hW : ∀ w ∈ W, w ≤ 255) :
    ∀ q ∈ (longDiv B r W).1, q ≤ 255 := by
  induction W generalizing r with
  | nil => exact fun q hq => absurd hq List.not_mem_nil
  | cons w ws ih =>
    have hw := hW w List.mem_cons_self
    have hhead : (r * 256 + w) / B < 256 := Nat.div_lt_of_lt_mul (by omega)
    have htail := ih (Nat.mod_lt (r * 256 + w) (by omega : 0 < B)) fun x hx => hW x (List.mem_cons_of_mem w hx)
    exact List.forall_mem_cons.mpr ⟨Nat.lt_succ_iff.mp hhead, htail⟩

/-- Quotient and remainder of the dividend that begins with the remainder so far. -/
theorem longDiv_exact (B r : Nat) (W : List Nat) :
    val (longDiv B r W).1 256 * B + (longDiv B r W).2 = r * 256 ^ W.length + val W 256 := by
  induction W generalizing r with
  | nil => simp [longDiv]
  | cons w ws ih =>
    have hdiv := Nat.div_add_mod (r * 256 + w) B
    have hlen := length_longDiv B ((r * 256 + w) % B) ws
    calc val (longDiv B r (w :: ws)).1 256 * B + (longDiv B r (w :: ws)).2
        = (r * 256 + w) / B * 256 ^ ws.length * B + (val (longDiv B ((r * 256 + w) % B) ws).1 256 * B +
            (longDiv B ((r * 256 + w) % B) ws).2) := by
          rw [longDiv, val_cons, hlen]
          ring
      _ = (B * ((r * 256 + w) / B) + (r * 256 + w) % B) * 256 ^ ws.length + val ws 256 := by
          rw [ih]
          ring
      _ = r * 256 ^ (w :: ws).length + val (w :: ws) 256 := by
          rw [hdiv, val_cons, List.length_cons]
          ring

/-- Settles O52: each part by induction along the bytes, with the remainder so far general. -/
theorem longDivisionIsExact : Obligations.LongDivisionIsExact := by
  unfold Obligations.LongDivisionIsExact
  exact fun B r W _ _ hr hW =>
    ⟨length_longDiv B r W, longDiv_quotient_le hr hW, longDiv_remainder_lt hr W, longDiv_exact B r W⟩

/-! The passes -/

/-- A pass from remainder 0 divides the value of the working copy. -/
theorem longDiv_zero {B : Nat} (hB : 0 < B) (W : List Nat) :
    val (longDiv B 0 W).1 256 = val W 256 / B ∧ (longDiv B 0 W).2 = val W 256 % B := by
  have hexact := longDiv_exact B 0 W
  rw [Nat.zero_mul, Nat.zero_add, Nat.mul_comm, Nat.add_comm] at hexact
  obtain ⟨hq, hr⟩ := (Nat.div_mod_unique hB).mpr ⟨hexact, longDiv_remainder_lt hB W⟩
  exact ⟨hq.symm, hr.symm⟩

theorem all_eq_zero_iff_val (W : List Nat) : W.all (· == 0) = true ↔ val W 256 = 0 := by
  induction W with
  | nil => simp
  | cons w ws ih => simp [val_cons, ← ih]

/-- The loop's invariant: the digits still to come are those of the value left in the working copy, and a pass at
least halves that value. -/
theorem divLoop_eq {B : Nat} (hB : 2 ≤ B) {k : Nat} {W : List Nat} (hk : val W 256 < 2 ^ k) (T : List Nat) :
    divLoop B k W T = T ++ (digits (val W 256) B).reverse := by
  induction k generalizing W T with
  | zero =>
    obtain hV : val W 256 = 0 := by simpa using hk
    simp [divLoop, hV]
  | succ k ih =>
    by_cases hV : val W 256 = 0
    · simp [divLoop, (all_eq_zero_iff_val W).mpr hV, hV]
    · obtain ⟨hq, hr⟩ := longDiv_zero (by omega : 0 < B) W
      have hk' : val (longDiv B 0 W).1 256 < 2 ^ k := by
        rw [hq, Nat.div_lt_iff_lt_mul (by omega)]
        exact hk.trans_le (Nat.mul_le_mul_left _ hB)
      rw [divLoop, if_neg (mt (all_eq_zero_iff_val W).mp hV), ih hk', hq, hr, digits_step hB hV]
      simp

/-- Settles O54: `8 * (n - z)` passes are enough for a value below `256 ^ (n - z)`, and the digit stack reversed is
`digits`. -/
theorem encReferenceComputesEnc : Obligations.EncReferenceComputesEnc := by
  unfold Obligations.EncReferenceComputesEnc
  intro A b hA
  have hfuel : byteVal (b.drop (lead b 0x00)) < 2 ^ (8 * ((b.drop (lead b 0x00)).map BitVec.toNat).length) := by
    rw [List.length_map, pow_mul]
    exact byteVal_lt_pow _
  rw [encReference, divLoop_eq (two_le_length_of_isAlphabet hA) hfuel, List.nil_append, List.reverse_reverse]
  rfl

end Sys2Proof.Machine
end

section
/-! SUPPORT. The outcomes of ENCODE (41_encode.md R141). -/

namespace Sys2Proof.Machine

/-- A failing ENCODE, from its acceptance to the emptied output. -/
theorem encFail_accept (e : ErrCode) (s : State) : encFail e (accept 0x02 (idleEdge s)) =
    { failed 0x02 (errValue e) 0x00 0x00 s with syms := Vector.replicate 128 0x00, slen := 0x00 } := by
  rw [encFail, fill_nil]
  rfl

theorem encodeComplete_badLength {s : State} (hv : s.avalid = true)
    (hn : s.blen.toNat > 16 ∨ s.strict16 = true ∧ s.blen.toNat ≠ 16) :
    encodeComplete s = .next (encFail .byteLenEnc s) := by
  rcases hn with hn | ⟨hs, hn⟩
  · simp [encodeComplete, hv, hn]
  · simp [encodeComplete, hv, hs, hn]

theorem encodeComplete_succeeds {s : State} (hv : s.avalid = true) (hle : s.blen.toNat ≤ 16)
    (hs : s.strict16 = true → s.blen.toNat = 16) (hA : isAlphabet (alphabet s) = true) :
    encodeComplete s = .next (succeed
      { s with
        syms := fill 128 (enc (alphabet s) (byteOperand s))
        slen := BitVec.ofNat 8 (enc (alphabet s) (byteOperand s)).length }) := by
  have hs' : ¬ (s.strict16 = true ∧ ¬ s.blen.toNat = 16) := fun h => h.2 (hs h.1)
  simp [encodeComplete, hv, hA, hle.not_gt, hs']

/-- Sixteen bytes give at most 128 symbols, which `SYMS` and `SLEN` hold. -/
theorem length_enc_byteOperand_le {s : State} (hle : s.blen.toNat ≤ 16) {A : List Byte} (hA : isAlphabet A = true) :
    (enc A (byteOperand s)).length ≤ 128 := by
  have hmax := length_enc_le hA (byteOperand s)
  have hlead := lead_le_length (byteOperand s) 0x00
  have hn : (byteOperand s).length ≤ s.blen.toNat := List.length_take_le _ _
  omega

/-- Settles O56: each clause is one case of the completion, after acceptance; the result fits in the output. -/
theorem encodeCommand : Obligations.EncodeCommand := by
  unfold Obligations.EncodeCommand
  intro s hb hl
  rw [exec_encode_idle hb]
  refine ⟨fun hv => ?_, fun hv hn => ?_, fun hv hle hs => ?_⟩
  · exact (encodeComplete_unlocked (s := accept 0x02 (idleEdge s)) hv).trans (congrArg _ (encFail_accept .noAlpha s))
  · exact (encodeComplete_badLength (s := accept 0x02 (idleEdge s)) hv hn).trans
      (congrArg _ (encFail_accept .byteLenEnc s))
  · have hA := isAlphabet_of_locked hl hv
    have hfit := length_enc_byteOperand_le hle hA
    refine ⟨_, encodeComplete_succeeds hv hle hs hA, rfl, ?_, fun i => ?_⟩
    · exact Nat.mod_eq_of_lt (Nat.lt_of_le_of_lt hfit (by decide))
    · refine (fill_getElem 128 _ i i.isLt).trans ?_
      split
      · rfl
      · exact List.getD_eq_default _ _ (Nat.le_of_not_lt ‹_›)

end Sys2Proof.Machine
end

section
/-! SUPPORT. `dec` through the value of its string, as `enc` is read through the value of its bytes (42_decode.md R160):
the two are inverse to each other because leading zeros and value fix a byte sequence, and a string over the alphabet. -/

namespace Sys2Proof.Machine

/-! The value of a string -/

/-- The digit values of a string's symbols (42_decode.md R160). -/
def symDigits (A s : List Byte) : List Nat := s.map fun c => (idx A c).getD 0

/-- A string as one integer in the base of its alphabet. -/
def symVal (A s : List Byte) : Nat := val (symDigits A s) A.length

@[simp] theorem length_symDigits (A s : List Byte) : (symDigits A s).length = s.length := List.length_map _

theorem symVal_cons (A : List Byte) (c : Byte) (s : List Byte) :
    symVal A (c :: s) = (idx A c).getD 0 * A.length ^ s.length + symVal A s := by
  rw [symVal, symDigits, List.map_cons, val_cons, List.length_map]
  rfl

/-! `dec` (R160), of any string -/

/-- The bytes of a value, from its base-256 digits, are read back as the digits. -/
theorem map_toNat_map_ofNat {d : List Nat} (hd : ∀ x ∈ d, x < 256) :
    (d.map (BitVec.ofNat 8)).map BitVec.toNat = d := by
  rw [List.map_map, List.map_congr_left (g := id) fun x hx => ?_, List.map_id]
  exact Nat.mod_eq_of_lt (hd x hx)

theorem map_ofNat_map_toNat (b : List Byte) : (b.map BitVec.toNat).map (BitVec.ofNat 8) = b := by
  simp [Function.comp_def]

/-- The minimal bytes of a value do not begin with 0x00. -/
theorem lead_map_ofNat_digits (V : Nat) : lead ((digits V 256).map (BitVec.ofNat 8)) 0x00 = 0 := by
  have hlt := lt_of_mem_digits (B := 256) (by decide) V
  have h0 := head?_digits_ne_zero (B := 256) (by decide) V
  generalize digits V 256 = d at hlt h0
  cases d with
  | nil => rfl
  | cons x d =>
    refine lead_cons_ne (fun hx => h0 ?_) _
    have hx0 : x % 256 = 0 := congrArg BitVec.toNat hx
    rw [Nat.mod_eq_of_lt (hlt x List.mem_cons_self)] at hx0
    exact congrArg some hx0

theorem lead_dec (A s : List Byte) : lead (dec A s) 0x00 = lead s (A.getD 0 0x00) := by
  rw [dec, lead_replicate_append, lead_map_ofNat_digits, Nat.add_zero]

/-! Strings over an alphabet -/

theorem forall_mem_drop_lead {A s : List Byte} (hs : ∀ c ∈ s, c ∈ A) (e : Byte) :
    ∀ c ∈ s.drop (lead s e), c ∈ A :=
  fun c hc => hs c (List.mem_of_mem_drop hc)

section Strings

variable {A : List Byte} (hA : isAlphabet A = true)
include hA

/-- Leading zero symbols add nothing to the value. -/
theorem symVal_drop_lead (s : List Byte) : symVal A (s.drop (lead s (A.getD 0 0x00))) = symVal A s := by
  have h0 : idx A (A.getD 0 0x00) = some 0 := idx_getD hA (Nat.zero_lt_of_lt (two_le_length_of_isAlphabet hA))
  induction s with
  | nil => rfl
  | cons c s ih =>
    by_cases hc : c = A.getD 0 0x00
    · subst hc
      rw [lead_cons_self, List.drop_succ_cons, ih, symVal_cons, h0, Option.getD_some, Nat.zero_mul, Nat.zero_add]
    · rw [lead_cons_ne hc, List.drop_zero]

/-- The leading zero symbols and the value of the string give its bytes. -/
theorem dec_eq (s : List Byte) :
    dec A s = List.replicate (lead s (A.getD 0 0x00)) 0x00 ++ (digits (symVal A s) 256).map (BitVec.ofNat 8) := by
  rw [← symVal_drop_lead hA]
  rfl

theorem length_dec (s : List Byte) :
    (dec A s).length = lead s (A.getD 0 0x00) + (digits (symVal A s) 256).length := by
  simp [dec_eq hA]

/-- The decoded bytes have the value of the string. -/
theorem byteVal_dec (s : List Byte) : byteVal (dec A s) = symVal A s := by
  have hdrop : (dec A s).drop (lead (dec A s) 0x00) = (digits (symVal A s) 256).map (BitVec.ofNat 8) := by
    rw [lead_dec, dec_eq hA]
    exact List.drop_left' List.length_replicate
  rw [← byteVal_drop_lead, hdrop, byteVal, map_toNat_map_ofNat (lt_of_mem_digits (by decide) _), val_digits (by decide)]

/-- The symbols of `enc` have the value of the bytes. -/
theorem symVal_enc (b : List Byte) : symVal A (enc A b) = byteVal b := by
  have h2 := two_le_length_of_isAlphabet hA
  have hdrop : (enc A b).drop (lead (enc A b) (A.getD 0 0x00)) =
      (digits (byteVal b) A.length).map fun i => A.getD i 0x00 := by
    rw [lead_enc hA, enc_eq]
    exact List.drop_left' List.length_replicate
  rw [← symVal_drop_lead hA, hdrop, symVal, symDigits, map_idx_map_getD hA (lt_of_mem_digits h2 _), val_digits h2]

theorem mem_of_mem_enc (b : List Byte) : ∀ c ∈ enc A b, c ∈ A := by
  have h2 := two_le_length_of_isAlphabet hA
  have getD_mem : ∀ i < A.length, A.getD i 0x00 ∈ A :=
    fun i hi => List.getD_eq_getElem A 0x00 hi ▸ List.getElem_mem hi
  rw [enc_eq, List.forall_mem_append, List.forall_mem_map]
  refine ⟨fun c hc => ?_, fun i hi => getD_mem i (lt_of_mem_digits h2 _ i hi)⟩
  rw [List.eq_of_mem_replicate hc]
  exact getD_mem 0 (by omega)

/-- The law R162 of the functions: `dec` and `enc` keep the leading zeros and the value. -/
theorem dec_enc (b : List Byte) : dec A (enc A b) = b :=
  eq_of_lead_of_byteVal ((lead_dec _ _).trans (lead_enc hA b)) ((byteVal_dec hA _).trans (symVal_enc hA b))

/-- A symbol of the alphabet is the symbol of its digit value. -/
theorem getElem?_idx_getD {c : Byte} (hc : c ∈ A) : A[(idx A c).getD 0]? = some c := by
  obtain ⟨-, -, hn⟩ := (isAlphabet_iff A).mp hA
  obtain ⟨i, hi⟩ := Option.ne_none_iff_exists'.mp fun h => (idx_eq_none_iff A c).mp h hc
  rw [hi]
  exact (idx_eq_some_iff hn c i).mp hi

/-- Symbols that stand at given places of the alphabet have these as digit values. -/
theorem symDigits_eq_of_map {d : List Nat} {s : List Byte} (h : d.map (fun i => A[i]?) = s.map some) :
    symDigits A s = d := by
  obtain ⟨-, -, hn⟩ := (isAlphabet_iff A).mp hA
  induction d generalizing s with
  | nil =>
    obtain rfl : s = [] := List.map_eq_nil_iff.mp h.symm
    rfl
  | cons i d ih =>
    cases s with
    | nil => cases h
    | cons c s =>
      obtain ⟨hc, hs⟩ := List.cons.inj h
      have hi : (idx A c).getD 0 = i := by rw [(idx_eq_some_iff hn c i).mpr hc, Option.getD_some]
      exact congrArg₂ List.cons hi (ih hs)

section Members

variable {s : List Byte} (hs : ∀ c ∈ s, c ∈ A)
include hs

theorem lt_of_mem_symDigits : ∀ x ∈ symDigits A s, x < A.length :=
  List.forall_mem_map.mpr fun c hc => (List.getElem?_eq_some_iff.mp (getElem?_idx_getD hA (hs c hc))).1

theorem symVal_lt_pow_sub_lead : symVal A s < A.length ^ (s.length - lead s (A.getD 0 0x00)) := by
  have h := val_lt_pow (lt_of_mem_symDigits hA (forall_mem_drop_lead hs (A.getD 0 0x00)))
  rwa [length_symDigits, List.length_drop, ← symVal, symVal_drop_lead hA] at h

theorem map_getD_symDigits : (symDigits A s).map (fun i => A.getD i 0x00) = s := by
  rw [symDigits, List.map_map, List.map_congr_left (g := id) fun c hc => ?_, List.map_id]
  simp [List.getD, getElem?_idx_getD hA (hs c hc)]

/-- The symbols after the leading zero symbols are the minimal digits of the value. -/
theorem digits_symVal : digits (symVal A s) A.length = symDigits A (s.drop (lead s (A.getD 0 0x00))) := by
  have hdrop := forall_mem_drop_lead hs (A.getD 0 0x00)
  rw [← symVal_drop_lead hA, symVal,
    ← eq_digits_val (two_le_length_of_isAlphabet hA) (lt_of_mem_symDigits hA hdrop)]
  intro h0
  obtain ⟨c, hc, hz⟩ := Option.map_eq_some_iff.mp (List.head?_map.symm.trans h0)
  refine head?_drop_lead s (A.getD 0 0x00) (hc.trans ?_)
  have hsym := getElem?_idx_getD hA (hdrop c (List.mem_of_head? hc))
  rw [hz] at hsym
  simp [List.getD, hsym]

/-- The law R163: `enc` writes the leading zeros and the digits of the string's value. -/
theorem enc_dec : enc A (dec A s) = s := by
  rw [enc_eq, lead_dec, byteVal_dec hA, digits_symVal hA hs, map_getD_symDigits hA (forall_mem_drop_lead hs _)]
  exact replicate_lead_append_drop s _

/-- Sixteen bytes have at most 128 symbols, so more symbols have more bytes. -/
theorem lt_length_dec (hlong : 128 < s.length) : 16 < (dec A s).length := by
  have hmax := length_enc_le hA (dec A s)
  have hlead := lead_le_length (dec A s) 0x00
  rw [enc_dec hA hs] at hmax
  omega

/-- A symbol stands for less than a byte. -/
theorem length_dec_le : (dec A s).length ≤ s.length := by
  obtain ⟨-, h255, -⟩ := (isAlphabet_iff A).mp hA
  have hle := lead_le_length s (A.getD 0 0x00)
  have hlt : symVal A s < 256 ^ (s.length - lead s (A.getD 0 0x00)) :=
    (symVal_lt_pow_sub_lead hA hs).trans_le (Nat.pow_le_pow_left (by omega) _)
  rw [length_dec hA]
  have hdig := (length_digits_le_iff (by decide) _ _).mpr hlt
  omega

/-- Only zero symbols leave only zero bytes. -/
theorem length_dec_eq_lead_iff :
    (dec A s).length = lead s (A.getD 0 0x00) ↔ lead s (A.getD 0 0x00) = s.length := by
  have hiff := lead_lt_length_enc_iff hA (dec A s)
  have hle := lead_le_length s (A.getD 0 0x00)
  have hmin := length_dec hA s
  rw [enc_dec hA hs, lead_dec] at hiff
  omega

end Members

end Strings

/-- Settles O43: the places of the symbols are their digit values, and a byte sequence that does not begin with 0x00 is
the minimal one of its value. -/
theorem decIsZeroBytesThenMinimalBytes : Obligations.DecIsZeroBytesThenMinimalBytes := by
  unfold Obligations.DecIsZeroBytesThenMinimalBytes
  intro A s y d hA hd h0 hval
  have hlead : lead y 0x00 = 0 := by
    cases y with
    | nil => rfl
    | cons x y => exact lead_cons_ne (fun hx => h0 (congrArg some hx)) y
  have hsym : byteVal y = symVal A (s.drop (lead s (A.getD 0 0x00))) := by
    rw [symVal, symDigits_eq_of_map hA hd]
    exact hval
  have hy : digits (symVal A (s.drop (lead s (A.getD 0 0x00)))) 256 = y.map BitVec.toNat := by
    rw [← hsym, digits_byteVal, hlead, List.drop_zero]
  calc dec A s
      = List.replicate (lead s (A.getD 0 0x00)) 0x00 ++ (y.map BitVec.toNat).map (BitVec.ofNat 8) := by rw [← hy]; rfl
    _ = List.replicate (lead s (A.getD 0 0x00)) 0x00 ++ y := by rw [map_ofNat_map_toNat]

/-- Settles O49: `enc` undoes `dec`, which is therefore injective. -/
theorem converseRoundTrip : Obligations.ConverseRoundTrip := by
  unfold Obligations.ConverseRoundTrip
  refine fun A hA => ⟨fun s hs => enc_dec hA hs, fun s s' hs hs' h => ?_⟩
  rw [← enc_dec hA hs, h, enc_dec hA hs']

/-- Settles O50: a shorter result would be the preimage of a string of at most 128 symbols. -/
theorem longStringsNeverFit : Obligations.LongStringsNeverFit := by
  unfold Obligations.LongStringsNeverFit
  exact fun A s hA hs hlong => lt_length_dec hA hs hlong

end Sys2Proof.Machine
end

section
/-! SUPPORT. The outcomes of DECODE (42_decode.md R161), and of ENCODE followed by DECODE (R162). -/

namespace Sys2Proof.Machine

/-! The scan for a symbol outside the alphabet -/

theorem firstOutsideFrom_cons_mem {A : List Byte} {c : Byte} (hc : c ∈ A) (k : Nat) (s : List Byte) :
    firstOutsideFrom A k (c :: s) = firstOutsideFrom A (k + 1) s :=
  if_neg fun h => (idx_eq_none_iff A c).mp (Option.isNone_iff_eq_none.mp h) hc

theorem firstOutsideFrom_cons_notMem {A : List Byte} {c : Byte} (hc : c ∉ A) (k : Nat) (s : List Byte) :
    firstOutsideFrom A k (c :: s) = some (c, k) :=
  if_pos (Option.isNone_iff_eq_none.mpr ((idx_eq_none_iff A c).mpr hc))

theorem firstOutsideFrom_eq_none_iff (A : List Byte) (k : Nat) (s : List Byte) :
    firstOutsideFrom A k s = none ↔ ∀ c ∈ s, c ∈ A := by
  induction s generalizing k with
  | nil => simp [firstOutsideFrom]
  | cons c s ih =>
    by_cases hc : c ∈ A
    · simp [firstOutsideFrom_cons_mem hc, ih, hc]
    · simp [firstOutsideFrom_cons_notMem hc, hc]

theorem firstOutside_eq_none_iff (A s : List Byte) : firstOutside A s = none ↔ ∀ c ∈ s, c ∈ A :=
  firstOutsideFrom_eq_none_iff A 0 s

/-- The scan stops at the first symbol outside the alphabet, with its index. -/
theorem firstOutsideFrom_eq_some {A s : List Byte} {i : Nat} {c : Byte} (hi : s[i]? = some c) (hc : c ∉ A)
    (hbefore : ∀ x ∈ s.take i, x ∈ A) (k : Nat) : firstOutsideFrom A k s = some (c, k + i) := by
  induction s generalizing i k with
  | nil => cases hi
  | cons x s ih =>
    cases i with
    | zero =>
      cases hi
      exact firstOutsideFrom_cons_notMem hc k s
    | succ i =>
      obtain ⟨hx, hrest⟩ := List.forall_mem_cons.mp hbefore
      rw [firstOutsideFrom_cons_mem hx, ih hi hrest, Nat.add_right_comm, Nat.add_assoc]

theorem firstOutside_symOperand_eq_some {A : List Byte} {s : State} {k : Fin 128} (hk : k.val < s.slen.toNat)
    (hc : s.syms[k] ∉ A) (hbefore : ∀ k' : Fin 128, k' < k → s.syms[k'] ∈ A) :
    firstOutside A (symOperand s) = some (s.syms[k], k.val) := by
  rw [firstOutside, firstOutsideFrom_eq_some (i := k.val) (c := s.syms[k]) (by simp [symOperand, hk]) hc, Nat.zero_add]
  intro x hx
  rw [symOperand, List.take_take, min_eq_left hk.le, mem_take_toList_iff] at hx
  obtain ⟨k', hlt, rfl⟩ := hx
  exact hbefore k' hlt

theorem firstOutside_symOperand_eq_none {A : List Byte} {s : State}
    (hs : ∀ k : Fin 128, k.val < s.slen.toNat → s.syms[k] ∈ A) : firstOutside A (symOperand s) = none := by
  rw [firstOutside_eq_none_iff]
  intro c hc
  obtain ⟨k, hk, rfl⟩ := (mem_take_toList_iff _ _ _).mp hc
  exact hs k hk

/-! The operands, and what a filled register file delivers -/

theorem length_byteOperand {s : State} (hle : s.blen.toNat ≤ 16) : (byteOperand s).length = s.blen.toNat := by
  simpa [byteOperand] using hle

theorem getD_byteOperand {s : State} {i : Fin 16} (hi : i.val < s.blen.toNat) :
    (byteOperand s).getD i 0x00 = s.bytes[i] := by
  simp [byteOperand, hi]

theorem take_toList_fill {n : Nat} {l : List Byte} (h : l.length ≤ n) : (fill n l).toList.take l.length = l := by
  refine List.ext_getElem (by simpa using h) fun i hi hl => ?_
  rw [List.getElem_take, Vector.getElem_toList, fill_getElem, List.getD_eq_getElem _ _ hl]

theorem getElem_fill_eq_ite {n : Nat} (l : List Byte) (i : Fin n) :
    (fill n l)[i] = if i.val < l.length then l.getD i 0x00 else 0x00 := by
  refine (fill_getElem n l i i.isLt).trans ?_
  split
  · rfl
  · exact List.getD_eq_default _ _ (Nat.le_of_not_lt ‹_›)

theorem toNat_ofNat_length {l : List Byte} {n : Nat} (h : l.length ≤ n) (hn : n < 256) :
    (BitVec.ofNat 8 l.length).toNat = l.length := Nat.mod_eq_of_lt (by omega)

theorem byteOperand_of_fill {t : State} {y : List Byte} (hy : y.length ≤ 16) (hb : t.bytes = fill 16 y)
    (hn : t.blen = BitVec.ofNat 8 y.length) : byteOperand t = y := by
  rw [byteOperand, hb, hn, toNat_ofNat_length hy (by decide), take_toList_fill hy]

theorem symOperand_of_fill {t : State} {r : List Byte} (hr : r.length ≤ 128) (hb : t.syms = fill 128 r)
    (hn : t.slen = BitVec.ofNat 8 r.length) : symOperand t = r := by
  rw [symOperand, hb, hn, toNat_ofNat_length hr (by decide), take_toList_fill hr]

/-! The completion, case by case (R161) -/

/-- A failing DECODE, from its acceptance to the emptied output. -/
theorem decFail_accept (e : ErrCode) (sym pos : Byte) (s : State) : decFail e sym pos (accept 0x03 (idleEdge s)) =
    { failed 0x03 (errValue e) sym pos s with bytes := Vector.replicate 16 0x00, blen := 0x00 } := by
  rw [decFail, fill_nil]
  rfl

section Locked

variable {s : State} (hv : s.avalid = true)
include hv

theorem decodeComplete_symLen (hL : s.slen.toNat > 128) :
    decodeComplete s = .next (decFail .symLen 0x00 0x00 s) := by
  simp [decodeComplete, hv, hL]

variable (hL : s.slen.toNat ≤ 128) (hA : isAlphabet (alphabet s) = true)
include hL hA

theorem decodeComplete_nonBase {c : Byte} {k : Nat} (ho : firstOutside (alphabet s) (symOperand s) = some (c, k)) :
    decodeComplete s = .next (decFail .nonBase c (BitVec.ofNat 8 k) s) := by
  simp [decodeComplete, hv, hL.not_gt, hA, ho]

variable (ho : firstOutside (alphabet s) (symOperand s) = none)
include ho

theorem decodeComplete_byteLen (hn : (dec (alphabet s) (symOperand s)).length > 16 ∨
    s.strict16 = true ∧ (dec (alphabet s) (symOperand s)).length ≠ 16) :
    decodeComplete s = .next (decFail .byteLenDec 0x00 0x00 s) := by
  rcases hn with hn | ⟨hs, hn⟩
  · simp [decodeComplete, hv, hL.not_gt, hA, ho, hn]
  · simp [decodeComplete, hv, hL.not_gt, hA, ho, hs, hn]

theorem decodeComplete_succeeds (hle : (dec (alphabet s) (symOperand s)).length ≤ 16)
    (hs : s.strict16 = true → (dec (alphabet s) (symOperand s)).length = 16) :
    decodeComplete s = .next (succeed
      { s with
        bytes := fill 16 (dec (alphabet s) (symOperand s))
        blen := BitVec.ofNat 8 (dec (alphabet s) (symOperand s)).length }) := by
  have hs' : ¬ (s.strict16 = true ∧ ¬ (dec (alphabet s) (symOperand s)).length = 16) := fun h => h.2 (hs h.1)
  simp [decodeComplete, hv, hL.not_gt, hA, ho, hle.not_gt, hs']

end Locked

/-! The command issued while idle -/

theorem exec_decode_fails {s : State} (hb : s.busy = false) {e : ErrCode} {sym pos : Byte}
    (h : decodeComplete (accept 0x03 (idleEdge s)) = .next (decFail e sym pos (accept 0x03 (idleEdge s)))) :
    exec .decode s = .next
      { failed 0x03 (errValue e) sym pos s with bytes := Vector.replicate 16 0x00, blen := 0x00 } := by
  rw [exec_decode_idle hb, h, decFail_accept]

theorem exec_decode_succeeds {s : State} (hb : s.busy = false) (hv : s.avalid = true) (hL : s.slen.toNat ≤ 128)
    (hA : isAlphabet (alphabet s) = true) (ho : firstOutside (alphabet s) (symOperand s) = none) {y : List Byte}
    (hy : dec (alphabet s) (symOperand s) = y) (hle : y.length ≤ 16) (hs : s.strict16 = true → y.length = 16) :
    exec .decode s = .next { succeeded 0x03 s with bytes := fill 16 y, blen := BitVec.ofNat 8 y.length } := by
  subst hy
  rw [exec_decode_idle hb]
  exact decodeComplete_succeeds (s := accept 0x03 (idleEdge s)) hv hL hA ho hle hs

/-- What a successful ENCODE leaves for a DECODE: the symbols as its string, and the alphabet it was encoded with. -/
theorem exec_encode_delivers {s : State} (hb : s.busy = false) (hv : s.avalid = true) (hle : s.blen.toNat ≤ 16)
    (hs : s.strict16 = true → s.blen.toNat = 16) (hA : isAlphabet (alphabet s) = true) :
    ∃ t, exec .encode s = .next t ∧ t.err = false ∧ t.busy = false ∧ t.avalid = true ∧ t.strict16 = s.strict16 ∧
      alphabet t = alphabet s ∧ t.slen.toNat ≤ 128 ∧ symOperand t = enc (alphabet s) (byteOperand s) := by
  have hfit := length_enc_byteOperand_le hle hA
  have henc := encodeComplete_succeeds (s := accept 0x02 (idleEdge s)) hv hle hs hA
  rw [exec_encode_idle hb]
  generalize hx : fill 128 _ = x at henc
  generalize hn : BitVec.ofNat 8 _ = n at henc
  refine ⟨_, henc, rfl, rfl, hv, rfl, rfl, ?_, symOperand_of_fill hfit hx.symm hn.symm⟩
  exact (congrArg BitVec.toNat hn.symm).trans_le ((toNat_ofNat_length hfit (by decide)).trans_le hfit)

/-- Everything a DECODE issued while idle can end in: a failure, the stop outside the domain of `dec`, or the delivery
of `dec` of a string that passed every test. -/
theorem exec_decode_cases {s : State} (hb : s.busy = false) :
    (∃ t, exec .decode s = .next t ∧ t.err = true) ∨
    (s.avalid = true ∧ isAlphabet (alphabet s) = false ∧ exec .decode s = .fault .notAnAlphabet) ∨
    (isAlphabet (alphabet s) = true ∧ (∀ c ∈ symOperand s, c ∈ alphabet s) ∧
      (s.strict16 = true → (dec (alphabet s) (symOperand s)).length = 16) ∧
      ∃ t, exec .decode s = .next t ∧ byteOperand t = dec (alphabet s) (symOperand s)) := by
  rw [exec_decode_idle hb]
  rcases decodeComplete_cases (accept 0x03 (idleEdge s)) with ⟨-, e⟩ | ⟨-, -, e⟩ | ⟨hv, -, hA, e⟩ |
    ⟨_, _, -, -, -, -, e⟩ | ⟨-, -, -, -, -, e⟩ | ⟨-, -, hA, ho, hle, hs, e⟩
  · exact .inl ⟨_, e, rfl⟩
  · exact .inl ⟨_, e, rfl⟩
  · exact .inr (.inl ⟨hv, hA, e⟩)
  · exact .inl ⟨_, e, rfl⟩
  · exact .inl ⟨_, e, rfl⟩
  · exact .inr (.inr ⟨hA, (firstOutside_eq_none_iff _ _).mp ho, hs, _, e, byteOperand_of_fill hle rfl rfl⟩)

/-! The statements -/

/-- Settles O57: each clause is one case of the completion, after acceptance; the result fits in the output. -/
theorem decodeCommand : Obligations.DecodeCommand := by
  unfold Obligations.DecodeCommand
  intro s hb hl
  refine ⟨fun hv => exec_decode_fails hb (decodeComplete_unlocked hv),
    fun hv hL => exec_decode_fails hb (decodeComplete_symLen hv hL), fun hv hL => ?_⟩
  have hA := isAlphabet_of_locked hl hv
  refine ⟨fun k hk hc hbefore => ?_, fun hmem => ?_⟩
  · exact exec_decode_fails hb
      (decodeComplete_nonBase (s := accept 0x03 (idleEdge s)) hv hL hA
        (firstOutside_symOperand_eq_some hk hc hbefore))
  · have ho := firstOutside_symOperand_eq_none hmem
    refine ⟨fun hn => exec_decode_fails hb (decodeComplete_byteLen hv hL hA ho hn), fun hle hs => ?_⟩
    exact ⟨_, exec_decode_succeeds hb hv hL hA ho rfl hle hs, rfl, toNat_ofNat_length hle (by decide),
      getElem_fill_eq_ite _⟩

/-- Settles O58: the bytes delivered are `dec` of the string, which has the string's value. -/
theorem decodeNeverTruncates : Obligations.DecodeNeverTruncates := by
  unfold Obligations.DecodeNeverTruncates
  intro s t hb h herr
  rcases exec_decode_cases hb with ⟨_, e, he⟩ | ⟨-, -, e⟩ | ⟨hA, -, -, _, e, hy⟩ <;> cases e.symm.trans h
  · simp [he] at herr
  · rw [hy, ← length_alphabet]
    exact ⟨rfl, byteVal_dec hA _⟩

/-- Settles O51: the bounds by the value of the string; fewer than 16 symbols give fewer than 16 bytes, so no DECODE of
them delivers under `STRICT16`. -/
theorem decLengthBounds : Obligations.DecLengthBounds := by
  unfold Obligations.DecLengthBounds
  refine ⟨fun A s hA hs => ⟨?_, length_dec_le hA hs, length_dec_eq_lead_iff hA hs⟩, fun s hb hl hstrict hshort => ?_⟩
  · rw [length_dec hA]
    exact Nat.le_add_right _ _
  · rcases exec_decode_cases hb with hfail | ⟨hv, hA, -⟩ | ⟨hA, hs, h16, -⟩
    · exact hfail
    · simp [isAlphabet_of_locked hl hv] at hA
    · have hle := length_dec_le hA hs
      have hlen : (symOperand s).length ≤ s.slen.toNat := List.length_take_le _ _
      have hexact := h16 hstrict
      omega

/-- Settles O48: `dec` undoes `enc`; what ENCODE leaves in `SYMS` is the string DECODE reads, over the same alphabet. -/
theorem roundTripLaw : Obligations.RoundTripLaw := by
  unfold Obligations.RoundTripLaw
  refine ⟨fun A b hA => dec_enc hA b, fun s hb hv hl hle hs => ?_⟩
  have hA := isAlphabet_of_locked hl hv
  have hlen := length_byteOperand hle
  obtain ⟨t, ht, herr, hbt, hvt, hst, hAt, hLt, hsym⟩ := exec_encode_delivers hb hv hle hs hA
  rw [← hAt] at hA hsym
  have hin : firstOutside (alphabet t) (symOperand t) = none := by
    rw [hsym, firstOutside_eq_none_iff]
    exact mem_of_mem_enc hA _
  have hback : dec (alphabet t) (symOperand t) = byteOperand s := by rw [hsym, dec_enc hA]
  have hdec := exec_decode_succeeds hbt hvt hLt hA hin hback (by omega) (by rw [hlen, hst]; exact hs)
  refine ⟨t, _, ht, herr, hdec, rfl, ?_, fun i => ?_⟩
  · exact (congrArg (BitVec.ofNat 8) hlen).trans ((BitVec.ofNat_toNat 8 s.blen).trans (BitVec.setWidth_eq _))
  · refine (getElem_fill_eq_ite _ i).trans ?_
    rw [hlen]
    exact ite_congr rfl getD_byteOperand fun _ => rfl

end Sys2Proof.Machine
end

section
/-! SUPPORT. The byte-wise DECODE of 42_decode.md R165: a pass multiplies and adds modulo the register, and the sticky
overflow says whether the register held every intermediate value. -/

namespace Sys2Proof.Machine

/-! One multiply-accumulate pass -/

theorem length_mulAdd (B c : Nat) (W : List Nat) : (mulAdd B W c).1.length = W.length := by
  induction W with
  | nil => rfl
  | cons w ws ih => exact congrArg (· + 1) ih

theorem mulAdd_bytes_lt (B c : Nat) (W : List Nat) : ∀ w ∈ (mulAdd B W c).1, w < 256 := by
  induction W with
  | nil => exact fun w hw => absurd hw List.not_mem_nil
  | cons w ws ih => exact List.forall_mem_cons.mpr ⟨Nat.mod_lt _ (by decide), ih⟩

/-- A byte times the base and a carry below the base are below `256 * B`, so the next carry is below the base. -/
theorem mulAdd_carry_lt {B c : Nat} (hc : c < B) {W : List Nat} (hW : ∀ w ∈ W, w ≤ 255) : (mulAdd B W c).2 < B := by
  induction W with
  | nil => exact hc
  | cons w ws ih =>
    obtain ⟨hw, hws⟩ := List.forall_mem_cons.mp hW
    have hmul : w * B ≤ 255 * B := Nat.mul_le_mul_right B hw
    have hcarry := ih hws
    exact Nat.div_lt_of_lt_mul (by omega)

/-- Carry and bytes together are the value times the base, plus the digit. -/
theorem mulAdd_exact (B c : Nat) (W : List Nat) :
    (mulAdd B W c).2 * 256 ^ W.length + val (mulAdd B W c).1 256 = val W 256 * B + c := by
  induction W with
  | nil => simp [mulAdd]
  | cons w ws ih =>
    have hdiv := Nat.div_add_mod (w * B + (mulAdd B ws c).2) 256
    calc (mulAdd B (w :: ws) c).2 * 256 ^ (w :: ws).length + val (mulAdd B (w :: ws) c).1 256
        = (256 * ((w * B + (mulAdd B ws c).2) / 256) + (w * B + (mulAdd B ws c).2) % 256) * 256 ^ ws.length +
            val (mulAdd B ws c).1 256 := by
          rw [mulAdd, val_cons, length_mulAdd, List.length_cons]
          ring
      _ = w * B * 256 ^ ws.length + ((mulAdd B ws c).2 * 256 ^ ws.length + val (mulAdd B ws c).1 256) := by
          rw [hdiv]
          ring
      _ = val (w :: ws) 256 * B + c := by
          rw [ih, val_cons]
          ring

/-- Settles O53: each part by induction along the bytes, from the last one. -/
theorem multiplyAccumulateIsExact : Obligations.MultiplyAccumulateIsExact := by
  unfold Obligations.MultiplyAccumulateIsExact
  intro B c W _ hB hc hW
  have hcarry := mulAdd_carry_lt hc hW
  exact ⟨length_mulAdd B c W, fun w hw => Nat.le_of_lt_succ (mulAdd_bytes_lt B c W w hw), by omega,
    mulAdd_exact B c W⟩

/-! The loop over the digits -/

/-- A pass leaves the value modulo the register, and carries out the rest. -/
theorem mulAdd_div_mod (B c : Nat) (W : List Nat) :
    (mulAdd B W c).2 = (val W 256 * B + c) / 256 ^ W.length ∧
      val (mulAdd B W c).1 256 = (val W 256 * B + c) % 256 ^ W.length := by
  have hexact := mulAdd_exact B c W
  have hlt := val_lt_pow (mulAdd_bytes_lt B c W)
  rw [length_mulAdd] at hlt
  rw [Nat.mul_comm, Nat.add_comm] at hexact
  obtain ⟨hq, hr⟩ := (Nat.div_mod_unique (Nat.pow_pos (by decide))).mpr ⟨hexact, hlt⟩
  exact ⟨hq.symm, hr.symm⟩

theorem length_accLoop (B : Nat) (cs W : List Nat) (o : Bool) : (accLoop B cs (W, o)).1.length = W.length := by
  induction cs generalizing W o with
  | nil => rfl
  | cons c cs ih => rw [accLoop, ih, length_mulAdd]

theorem accLoop_bytes_lt (B : Nat) (cs : List Nat) {W : List Nat} (hW : ∀ w ∈ W, w < 256) (o : Bool) :
    ∀ w ∈ (accLoop B cs (W, o)).1, w < 256 := by
  induction cs generalizing W o with
  | nil => exact hW
  | cons c cs ih => exact ih (mulAdd_bytes_lt B c W) _

/-- The loop's result: the value of the register followed by the digits, modulo the register. -/
theorem accLoop_val (B : Nat) (cs : List Nat) {W : List Nat} (hW : ∀ w ∈ W, w < 256) (o : Bool) :
    val (accLoop B cs (W, o)).1 256 = (val W 256 * B ^ cs.length + val cs B) % 256 ^ W.length := by
  induction cs generalizing W o with
  | nil => simpa [accLoop] using (Nat.mod_eq_of_lt (val_lt_pow hW)).symm
  | cons c cs ih =>
    obtain ⟨-, hmod⟩ := mulAdd_div_mod B c W
    calc val (accLoop B (c :: cs) (W, o)).1 256
        = ((val W 256 * B + c) % 256 ^ W.length * B ^ cs.length + val cs B) % 256 ^ W.length := by
          rw [accLoop, ih (mulAdd_bytes_lt B c W), hmod, length_mulAdd]
      _ = ((val W 256 * B + c) * B ^ cs.length + val cs B) % 256 ^ W.length :=
          ((Nat.mod_modEq _ _).mul_right _).add_right _
      _ = (val W 256 * B ^ (c :: cs).length + val (c :: cs) B) % 256 ^ W.length := by
          rw [val_cons, List.length_cons]
          ring_nf

/-- The sticky overflow: the value of the register followed by the digits does not fit in the register. A carry out of
one pass is already a value that does not fit, and later digits only make it larger. -/
theorem accLoop_overflow {B : Nat} (hB : 0 < B) (cs : List Nat) {W : List Nat} (hW : ∀ w ∈ W, w < 256) (o : Bool) :
    (accLoop B cs (W, o)).2 = (o || decide (256 ^ W.length ≤ val W 256 * B ^ cs.length + val cs B)) := by
  induction cs generalizing W o with
  | nil => simp [accLoop, (val_lt_pow hW).not_ge]
  | cons c cs ih =>
    obtain ⟨hdiv, hmod⟩ := mulAdd_div_mod B c W
    have hnext : val W 256 * B ^ (c :: cs).length + val (c :: cs) B =
        (val W 256 * B + c) * B ^ cs.length + val cs B := by
      rw [val_cons, List.length_cons]
      ring
    rw [accLoop, ih (mulAdd_bytes_lt B c W), hmod, length_mulAdd, hnext, Bool.or_assoc, hdiv]
    congr 1
    by_cases hfit : val W 256 * B + c < 256 ^ W.length
    · simp [Nat.div_eq_of_lt hfit, Nat.mod_eq_of_lt hfit]
    · have hq : (val W 256 * B + c) / 256 ^ W.length ≠ 0 := (Nat.div_pos (not_lt.mp hfit) (Nat.pow_pos (by decide))).ne'
      have hgrow : 256 ^ W.length ≤ (val W 256 * B + c) * B ^ cs.length + val cs B :=
        (not_lt.mp hfit).trans (Nat.le_add_right_of_le (Nat.le_mul_of_pos_right _ (Nat.pow_pos hB)))
      simp only [hq, hgrow, ne_eq, not_false_eq_true, decide_true, Bool.true_or]

/-! The minimal bytes of the register -/

/-- What R165 delivers of the register: the bytes after the leading zeros, which are the digits of its value. -/
theorem drop_takeWhile_zero {W : List Nat} (hW : ∀ w ∈ W, w < 256) :
    W.drop (W.takeWhile (· == 0)).length = digits (val W 256) 256 := by
  induction W with
  | nil => rfl
  | cons w ws ih =>
    by_cases hw : w = 0
    · subst hw
      simpa [val_cons] using ih (List.forall_mem_cons.mp hW).2
    · have h0 : (w :: ws).head? ≠ some 0 := fun h => hw (Option.some.inj h)
      rw [List.takeWhile_cons_of_neg (by simpa using hw), List.length_nil, List.drop_zero]
      exact eq_digits_val (by decide) hW h0

/-- The work register and the sticky overflow of R165 after the last digit. -/
def decRegister (A s : List Byte) : List Nat × Bool :=
  accLoop A.length (symDigits A (s.drop (lead s (A.getD 0 0x00)))) (List.replicate 16 0, false)

/-- The routine's answer from the register and the overflow. -/
theorem decReference_eq (A s : List Byte) :
    decReference A s =
      if (decRegister A s).2 ||
          decide (lead s (A.getD 0 0x00) + (digits (val (decRegister A s).1 256) 256).length > 16) then none
      else some (List.replicate (lead s (A.getD 0 0x00)) 0x00 ++
        (digits (val (decRegister A s).1 256) 256).map (BitVec.ofNat 8)) := by
  have hbytes : ∀ w ∈ (decRegister A s).1, w < 256 :=
    accLoop_bytes_lt _ _ (by decide) _
  have hlen : (decRegister A s).1.length = 16 := length_accLoop _ _ _ _
  rw [← drop_takeWhile_zero hbytes, List.length_drop, hlen]
  rfl

/-- The register begins with the value 0, so it ends with the string's value unless that does not fit. -/
theorem decRegister_eq {A : List Byte} (hA : isAlphabet A = true) (s : List Byte) :
    val (decRegister A s).1 256 = symVal A s % 256 ^ 16 ∧ (decRegister A s).2 = decide (256 ^ 16 ≤ symVal A s) := by
  have hpos : 0 < A.length := Nat.zero_lt_of_lt (two_le_length_of_isAlphabet hA)
  have hbytes : ∀ w ∈ List.replicate 16 0, w < 256 := by decide
  have hzero : val (List.replicate 16 0) 256 = 0 := by decide
  have hval := accLoop_val A.length (symDigits A (s.drop (lead s (A.getD 0 0x00)))) hbytes false
  have hover := accLoop_overflow hpos (symDigits A (s.drop (lead s (A.getD 0 0x00)))) hbytes false
  rw [hzero, Nat.zero_mul, Nat.zero_add, List.length_replicate] at hval hover
  rw [← symVal_drop_lead hA]
  exact ⟨hval, hover⟩

/-- Settles O55: without overflow the register holds the string's value, whose minimal bytes end `dec`; the overflow is
set exactly when these are more than 16. -/
theorem decReferenceComputesDec : Obligations.DecReferenceComputesDec := by
  unfold Obligations.DecReferenceComputesDec
  intro A s hA _
  obtain ⟨hval, hover⟩ := decRegister_eq hA s
  have hfits := length_digits_le_iff (B := 256) (by decide) (symVal A s) 16
  have hlen := length_dec hA s
  rw [decReference_eq, hval, hover]
  by_cases hV : symVal A s < 256 ^ 16
  · rw [Nat.mod_eq_of_lt hV, ← hlen, ← dec_eq hA, decide_eq_false hV.not_ge, Bool.false_or]
    by_cases hle : (dec A s).length ≤ 16
    · rw [if_pos hle, if_neg (by simpa using hle)]
    · rw [if_neg hle, if_pos (by simpa using hle)]
  · have hlong : ¬ (dec A s).length ≤ 16 := by omega
    rw [decide_eq_true (not_lt.mp hV), Bool.true_or, if_neg hlong, if_pos rfl]

end Sys2Proof.Machine
end

section
/-! SUPPORT. The command protocol of 43_control.md: acceptance by the write of `CMD`, the completion that follows it,
what a completion leaves alone, and that it always comes. -/

namespace Sys2Proof.Machine

/-! The steps that run no instruction -/

/-- Settles O8: a step with an event runs that event, and a step without one is a completion or an idle edge. -/
theorem stepOfOtherEvents : Obligations.StepOfOtherEvents := by
  unfold Obligations.StepOfOtherEvents
  intro s rest
  refine ⟨fun ha hb => ?_, fun ha hb => ?_, fun ha => step_cons ha, fun ha => step_cons ha, fun ha hb => ?_,
    fun ha hb => ?_⟩
  · exact (step_cons ha).trans (complete_busy (s := { s with agenda := rest }) hb)
  · exact (step_cons ha).trans (complete_idle (s := { s with agenda := rest }) hb)
  · rw [step_nil ha, if_pos hb, complete_busy hb]
  · rw [step_nil ha, if_neg (by simp [hb]), idleEdge]

/-! Acceptance (R180, R182) -/

/-- A write of `CMD` while idle accepts the command. -/
theorem exec_wr_accepts {s : State} (hb : s.busy = false) (v : Byte) :
    exec (.wr 0x000 v) s = .next (accept v (idleEdge s)) := exec_wr_idle hb .cmd regOf_cmd v

/-- An accepted command other than ACK is in flight. -/
theorem busy_accept_of_ne {v : Byte} (hv : v ≠ 0x00) (s : State) : (accept v s).busy = true := by
  simp only [accept_busy, ne_eq, hv, not_false_eq_true, decide_true, Bool.or_true]

/-- Settles O28: acceptance as a record while idle, the refused write while busy. -/
theorem acceptanceOfCommand : Obligations.AcceptanceOfCommand := by
  unfold Obligations.AcceptanceOfCommand
  exact fun s v => ⟨fun hb => exec_wr_cmd hb rfl v, fun hb => exec_wr_busy hb 0x000 v⟩

/-- ACK while idle is acceptance and nothing else. -/
theorem exec_ack_idle {s : State} (hb : s.busy = false) : exec .ack s = .next (accept 0x00 (idleEdge s)) :=
  issue_idle hb 0x00 .next

/-- The acceptance of ACK leaves `BUSY` as it is. -/
theorem accept_ack_eq (s : State) : accept 0x00 s =
    { s with cmd := 0x00, done := false, err := false, errcode := 0x00, errsym := 0x00, erridx := 0x00 } := by
  simp only [accept, ne_eq, not_true_eq_false, decide_false, Bool.or_false]

/-- Settles O30: ACK is acceptance with code 0x00, which clears `DONE` and with it the interrupt. -/
theorem ackCommand : Obligations.AckCommand := by
  unfold Obligations.AckCommand
  refine fun s => ⟨fun hb => ?_, fun hb => issue_busy hb 0x00 .next⟩
  rw [exec_ack_idle hb, accept_ack_eq]
  refine ⟨rfl, fun t ht => ?_⟩
  obtain rfl := Host.Outcome.next.inj ht
  exact ⟨hb, Bool.and_false s.ie⟩

/-! Acceptance followed by completion (R181, R183) -/

/-- The host event that writes `CMD` while idle accepts the command. -/
theorem runEvent_write_cmd {s : State} (hb : s.busy = false) (op : Byte) :
    runEvent (.host (xwordOf true 0x000 op)) s = .next (accept op (idleEdge s)) := by
  rw [runEvent, decodeXact_write (xwordOf_we true 0x000 op), xwordOf_addr, xwordOf_wdata, exec_wr_accepts hb]

/-- A command byte given while idle is the engine's step after acceptance. -/
theorem runCommand_idle {s : State} (hb : s.busy = false) (op : Byte) :
    runCommand op s = complete (accept op (idleEdge s)) := by
  rw [runCommand_eq_issue, issue_idle hb, idleEdge]

/-- Settles O9: both forms are the engine's step after acceptance; after ACK the engine has none. -/
theorem commandIsAcceptanceThenCompletion : Obligations.CommandIsAcceptanceThenCompletion := by
  unfold Obligations.CommandIsAcceptanceThenCompletion
  refine fun s op hb => ⟨fun _ => ?_, ?_⟩
  · rw [runCommand_idle hb, runEvents_cons_next (runEvent_write_cmd hb op), runEvents_singleton, runEvent]
  · rintro rfl
    rw [runCommand_idle hb, runEvents_singleton, runEvent_write_cmd hb, complete_accept_ack (s := idleEdge s) hb]

/-- An accepted reserved code completes with `E_BADCMD`. -/
theorem complete_accept_reserved {v : Byte} (hv : 5 ≤ v.toNat) (s : State) :
    complete (accept v (idleEdge s)) = .next (failed v 0x09 0x00 0x00 s) := by
  rw [complete_accept (by rintro rfl; simp at hv), completeCommand_reserved hv]
  rfl

/-- Settles O31: the accepted code is in flight, and its completion fails, singly or in one step. -/
theorem reservedCommandFails : Obligations.ReservedCommandFails := by
  unfold Obligations.ReservedCommandFails
  intro s v hb hv
  have hfail := complete_accept_reserved hv s
  exact ⟨accept v (idleEdge s), exec_wr_accepts hb v, rfl, busy_accept_of_ne (by rintro rfl; simp at hv) _, hfail,
    (runCommand_idle hb v).trans hfail⟩

/-! What a completion leaves alone (R181, R200) -/

/-- `t` is `u` with the end of a command on record, a failure or a success (R181, 60_exceptions.md R201). -/
def EndOf (u t : State) : Prop := (∃ e sym pos, t = raise e sym pos u) ∨ t = succeed u

theorem endOf_raise (e : ErrCode) (sym pos : Byte) (u : State) : EndOf u (raise e sym pos u) := .inl ⟨e, sym, pos, rfl⟩

theorem endOf_succeed (u : State) : EndOf u (succeed u) := .inr rfl

/-- SETALPHA writes `AVALID` and `BASE` alone. -/
theorem endOf_setalphaComplete {s t : State} (h : setalphaComplete s = .next t) :
    ∃ v b, EndOf { s with avalid := v, base := b } t := by
  rcases setalphaComplete_cases s with ⟨_, -, e⟩ | ⟨_, _, -, -, -, -, e⟩ | ⟨-, -, -, -, e⟩ <;> cases e.symm.trans h
  · exact ⟨s.avalid, s.base, endOf_raise ..⟩
  · exact ⟨s.avalid, s.base, endOf_raise ..⟩
  · exact ⟨_, _, endOf_succeed _⟩

/-- ENCODE writes `SYMS` and `SLEN` alone. -/
theorem endOf_encodeComplete {s t : State} (h : encodeComplete s = .next t) :
    ∃ x l, EndOf { s with syms := x, slen := l } t := by
  rcases encodeComplete_cases s with ⟨-, e⟩ | ⟨-, -, e⟩ | ⟨-, -, -, -, e⟩ | ⟨-, -, -, -, e⟩ <;> cases e.symm.trans h
  · exact ⟨_, _, endOf_raise ..⟩
  · exact ⟨_, _, endOf_raise ..⟩
  · exact ⟨_, _, endOf_succeed _⟩

/-- DECODE writes `BYTES` and `BLEN` alone. -/
theorem endOf_decodeComplete {s t : State} (h : decodeComplete s = .next t) :
    ∃ b n, EndOf { s with bytes := b, blen := n } t := by
  rcases decodeComplete_cases s with ⟨-, e⟩ | ⟨-, -, e⟩ | ⟨-, -, -, e⟩ | ⟨_, _, -, -, -, -, e⟩ | ⟨-, -, -, -, -, e⟩ |
      ⟨-, -, -, -, -, -, e⟩ <;>
    cases e.symm.trans h
  · exact ⟨_, _, endOf_raise ..⟩
  · exact ⟨_, _, endOf_raise ..⟩
  · exact ⟨_, _, endOf_raise ..⟩
  · exact ⟨_, _, endOf_raise ..⟩
  · exact ⟨_, _, endOf_succeed _⟩

/-- What each command may write before its end is put on record, by the code in `CMD`. -/
theorem endOf_completeCommand {s t : State} (h : completeCommand s = .next t) :
    ∃ b n x l v base, EndOf { s with bytes := b, blen := n, syms := x, slen := l, avalid := v, base := base } t ∧
      (s.cmd ≠ 0x02 → x = s.syms ∧ l = s.slen) ∧ (s.cmd ≠ 0x03 → b = s.bytes ∧ n = s.blen) ∧
      (s.cmd ≠ 0x01 ∧ s.cmd ≠ 0x04 → v = s.avalid ∧ base = s.base) := by
  rcases completeCommand_cases s with ⟨hc, e⟩ | ⟨hc, e⟩ | ⟨hc, e⟩ | ⟨hc, e⟩ | ⟨-, -, -, -, e⟩ <;> rw [e] at h
  · obtain ⟨v, base, hend⟩ := endOf_setalphaComplete h
    exact ⟨_, _, _, _, v, base, hend, fun _ => ⟨rfl, rfl⟩, fun _ => ⟨rfl, rfl⟩, fun hne => absurd hc hne.1⟩
  · obtain ⟨x, l, hend⟩ := endOf_encodeComplete h
    exact ⟨_, _, x, l, _, _, hend, fun hne => absurd hc hne, fun _ => ⟨rfl, rfl⟩, fun _ => ⟨rfl, rfl⟩⟩
  · obtain ⟨b, n, hend⟩ := endOf_decodeComplete h
    exact ⟨b, n, _, _, _, _, hend, fun _ => ⟨rfl, rfl⟩, fun hne => absurd hc hne, fun _ => ⟨rfl, rfl⟩⟩
  · cases h
    exact ⟨_, _, _, _, _, _, endOf_succeed _, fun _ => ⟨rfl, rfl⟩, fun _ => ⟨rfl, rfl⟩, fun hne => absurd hc hne.2⟩
  · cases h
    exact ⟨_, _, _, _, _, _, endOf_raise .., fun _ => ⟨rfl, rfl⟩, fun _ => ⟨rfl, rfl⟩, fun _ => ⟨rfl, rfl⟩⟩

/-- Settles O29: the end put on record changes neither the fields kept nor those the command wrote. -/
theorem completionFrame : Obligations.CompletionFrame := by
  unfold Obligations.CompletionFrame
  intro s t hb h
  rw [complete_busy hb] at h
  obtain ⟨b, n, x, l, v, base, ⟨_, _, _, rfl⟩ | rfl, hframe⟩ := endOf_completeCommand h
  · exact ⟨rfl, rfl, rfl, rfl, rfl, rfl, rfl, rfl, rfl, rfl, hframe⟩
  · exact ⟨rfl, rfl, rfl, rfl, rfl, rfl, rfl, rfl, rfl, rfl, hframe⟩

/-! The engine never stops (10_state.md R43 item 5) -/

/-- With an alphabet in force whenever `AVALID` = 1, no command meets the fault `notAnAlphabet` (log 6). -/
theorem completeCommand_answers {s : State} (h : LockedIsAlphabet s) : ∃ t, completeCommand s = .next t := by
  rcases completeCommand_cases s with ⟨-, e⟩ | ⟨-, e⟩ | ⟨-, e⟩ | ⟨-, e⟩ | ⟨-, -, -, -, e⟩ <;> rw [e]
  · rcases setalphaComplete_cases s with ⟨_, -, e⟩ | ⟨_, _, -, -, -, -, e⟩ | ⟨-, -, -, -, e⟩ <;> exact ⟨_, e⟩
  · rcases encodeComplete_cases s with ⟨-, e⟩ | ⟨-, -, e⟩ | ⟨hv, -, -, hA, -⟩ | ⟨-, -, -, -, e⟩
    case inr.inr.inl => simp [isAlphabet_of_locked h hv] at hA
    all_goals exact ⟨_, e⟩
  · rcases decodeComplete_cases s with ⟨-, e⟩ | ⟨-, -, e⟩ | ⟨hv, -, hA, -⟩ | ⟨_, _, -, -, -, -, e⟩ |
      ⟨-, -, -, -, -, e⟩ | ⟨-, -, -, -, -, -, e⟩
    case inr.inr.inl => simp [isAlphabet_of_locked h hv] at hA
    all_goals exact ⟨_, e⟩
  · exact ⟨_, rfl⟩
  · exact ⟨_, rfl⟩

theorem complete_answers {s : State} (h : LockedIsAlphabet s) : ∃ t, complete s = .next t := by
  cases hb : s.busy with
  | false => exact ⟨s, complete_idle hb⟩
  | true => simpa only [complete_busy hb] using completeCommand_answers h

/-- No event stops the machine: only the engine's step could, and acceptance keeps the alphabet in force. -/
theorem runEvent_answers {s : State} (h : LockedIsAlphabet s) (e : Event) : ∃ t, runEvent e s = .next t := by
  rcases runEvent_cases e s with ⟨_, _, -, hr⟩ | ⟨_, _, -, hr⟩ | ⟨op, -, hr⟩ | ⟨-, hr⟩ | ⟨-, hr⟩ | ⟨-, hr⟩ <;> rw [hr]
  case inr.inr.inl =>
    cases hb : s.busy with
    | true => exact ⟨_, by rw [runCommand_eq_issue, issue_busy hb]⟩
    | false => simpa only [runCommand_idle hb] using complete_answers (s := accept op (idleEdge s)) h
  case inr.inr.inr.inl => exact complete_answers h
  all_goals exact ⟨_, rfl⟩

/-- Settles O17: a step is an event, and the alphabet in force does not depend on the agenda. -/
theorem stepNeverStops : Obligations.StepNeverStops := by
  unfold Obligations.StepNeverStops
  intro s ⟨_, _, _, _, hlocked, _, _⟩
  obtain ⟨e, rest, -, hrun⟩ := step_eq_runEvent s
  rw [hrun]
  exact runEvent_answers (s := { s with agenda := rest }) hlocked e

/-! A command in flight ends (R186) -/

/-- A run goes on from the state its first step answers. -/
theorem run_succ_of_step {M : Host.Core} {s t : M.State} (h : M.step s = .next t) (k : Nat) :
    M.run (k + 1) s = M.run k t := by
  rw [Host.Core.run, h]

/-- The host's remaining events leave the command in flight and the alphabet alone, and one step more completes it. -/
theorem run_of_busy {s : State} (hl : LockedIsAlphabet s) (hb : s.busy = true)
    (hes : ∀ e ∈ s.agenda, isHostEvent e = true) :
    ∃ t : State, Host.Core.run Sys2Proof.core (s.agenda.length + 1) s = .next t ∧
      t.busy = false ∧ t.done = true ∧ t.cmd = s.cmd ∧ t.agenda = [] := by
  induction ha : s.agenda generalizing s with
  | nil =>
    obtain ⟨t, ht⟩ := complete_answers hl
    obtain ⟨hbusy, hdone, hcmd, -, -, -, -, -, -, hagenda, -⟩ := completionFrame s t hb ht
    have hstep : step s = .next t := by rw [step_nil ha, if_pos hb, ht]
    exact ⟨t, run_succ_of_step (M := Sys2Proof.core) hstep 0, hbusy, hdone, hcmd, hagenda.trans ha⟩
  | cons e es ih =>
    rw [ha] at hes
    obtain ⟨x, r, hrun⟩ := runEvent_host_busy (s := { s with agenda := es }) hb (hes e (by simp))
    obtain ⟨t, ht, hend⟩ := ih (s := withPort x r { s with agenda := es }) hl hb
      (fun e' he' => hes e' (List.mem_cons_of_mem e he')) rfl
    have hstep : step s = .next (withPort x r { s with agenda := es }) := (step_cons ha).trans hrun
    exact ⟨t, (run_succ_of_step (M := Sys2Proof.core) hstep (es.length + 1)).trans ht, hend⟩

/-- Settles O35: the invariants give the alphabet in force. -/
theorem busyAlwaysEnds : Obligations.BusyAlwaysEnds := by
  unfold Obligations.BusyAlwaysEnds
  intro s ⟨_, _, _, _, hlocked, _, _⟩
  exact run_of_busy hlocked

end Sys2Proof.Machine
end

section
/-! SUPPORT. Exceptions (60_exceptions.md): a failing completion is `raise` after the output is emptied, and the interrupt
is a level. -/

namespace Sys2Proof.Machine

/-! A failing completion, by command (R201) -/

/-- A failing SETALPHA has written nothing (40_alphabet.md R122). -/
theorem setalphaComplete_fails {s t : State} (h : setalphaComplete s = .next t) (he : s.err = false)
    (ht : t.err = true) : ∃ e sym pos, t = raise e sym pos s := by
  rcases setalphaComplete_cases s with ⟨_, -, e⟩ | ⟨_, _, -, -, -, -, e⟩ | ⟨-, -, -, -, e⟩ <;> cases e.symm.trans h
  · exact ⟨_, _, _, rfl⟩
  · exact ⟨_, _, _, rfl⟩
  · simp [he] at ht

/-- A failing ENCODE has failed by `encFail` (41_encode.md R141). -/
theorem encodeComplete_fails {s t : State} (h : encodeComplete s = .next t) (he : s.err = false)
    (ht : t.err = true) : ∃ e, t = encFail e s := by
  rcases encodeComplete_cases s with ⟨-, e⟩ | ⟨-, -, e⟩ | ⟨-, -, -, -, e⟩ | ⟨-, -, -, -, e⟩ <;> cases e.symm.trans h
  · exact ⟨_, rfl⟩
  · exact ⟨_, rfl⟩
  · simp [he] at ht

/-- A failing DECODE has failed by `decFail` (42_decode.md R161). -/
theorem decodeComplete_fails {s t : State} (h : decodeComplete s = .next t) (he : s.err = false)
    (ht : t.err = true) : ∃ e sym pos, t = decFail e sym pos s := by
  rcases decodeComplete_cases s with ⟨-, e⟩ | ⟨-, -, e⟩ | ⟨-, -, -, e⟩ | ⟨_, _, -, -, -, -, e⟩ | ⟨-, -, -, -, -, e⟩ |
      ⟨-, -, -, -, -, -, e⟩ <;>
    cases e.symm.trans h
  · exact ⟨_, _, _, rfl⟩
  · exact ⟨_, _, _, rfl⟩
  · exact ⟨_, _, _, rfl⟩
  · exact ⟨_, _, _, rfl⟩
  · simp [he] at ht

/-! A failing completion, for every command -/

/-- The state with the output of the command in `CMD` emptied: `SYMS` and `SLEN` for ENCODE, `BYTES` and `BLEN` for
DECODE, nothing for any other. -/
def emptyOutput (s : State) : State :=
  { s with
    syms := if s.cmd = 0x02 then Vector.replicate 128 0x00 else s.syms
    slen := if s.cmd = 0x02 then 0x00 else s.slen
    bytes := if s.cmd = 0x03 then Vector.replicate 16 0x00 else s.bytes
    blen := if s.cmd = 0x03 then 0x00 else s.blen }

theorem emptyOutput_of_ne {s : State} (h2 : s.cmd ≠ 0x02) (h3 : s.cmd ≠ 0x03) : emptyOutput s = s := by
  simp only [emptyOutput, h2, h3, if_false]

theorem encFail_eq_raise {s : State} (hc : s.cmd = 0x02) (e : ErrCode) :
    encFail e s = raise e 0x00 0x00 (emptyOutput s) := by
  have h3 : s.cmd ≠ 0x03 := by simp [hc]
  simp only [encFail, emptyOutput, fill_nil, if_pos hc, if_neg h3]

theorem decFail_eq_raise {s : State} (hc : s.cmd = 0x03) (e : ErrCode) (sym pos : Byte) :
    decFail e sym pos s = raise e sym pos (emptyOutput s) := by
  have h2 : s.cmd ≠ 0x02 := by simp [hc]
  simp only [decFail, emptyOutput, fill_nil, if_pos hc, if_neg h2]

/-- With no failure on record before it, a failing completion is `raise` after the output is emptied, and nothing else. -/
theorem completeCommand_fails {s t : State} (h : completeCommand s = .next t) (he : s.err = false)
    (ht : t.err = true) : ∃ e sym pos, t = raise e sym pos (emptyOutput s) := by
  rcases completeCommand_cases s with ⟨hc, e⟩ | ⟨hc, e⟩ | ⟨hc, e⟩ | ⟨-, e⟩ | ⟨-, h2, h3, -, e⟩ <;> rw [e] at h
  · rw [emptyOutput_of_ne (by simp [hc]) (by simp [hc])]
    exact setalphaComplete_fails h he ht
  · obtain ⟨code, rfl⟩ := encodeComplete_fails h he ht
    exact ⟨code, 0x00, 0x00, encFail_eq_raise hc code⟩
  · obtain ⟨code, sym, pos, rfl⟩ := decodeComplete_fails h he ht
    exact ⟨code, sym, pos, decFail_eq_raise hc code sym pos⟩
  · cases h
    simp [he] at ht
  · cases h
    rw [emptyOutput_of_ne h2 h3]
    exact ⟨.badCmd, 0x00, 0x00, rfl⟩

/-- Settles O32: the codes are those of the invariants, which the completion keeps; the rest is `raise` on the emptied
output. -/
theorem failureIsPrecise : Obligations.FailureIsPrecise := by
  unfold Obligations.FailureIsPrecise
  intro s t hinv hb h ht
  obtain ⟨-, -, hcode, hdetail, -, -, hknown⟩ := inv_complete hinv h
  obtain ⟨hquiet, -⟩ := hinv
  obtain ⟨-, herr, -⟩ := hquiet hb
  rw [complete_busy hb] at h
  refine ⟨hcode.mp ht, hknown, hdetail, ?_⟩
  obtain ⟨_, _, _, rfl⟩ := completeCommand_fails h herr ht
  rfl

/-! The interrupt (R217) -/

/-- After a completion the interrupt is as `CTRL.IE` enables it. -/
theorem irq_complete {s t : State} (hb : s.busy = true) (h : complete s = .next t) : irq t = s.ie := by
  obtain ⟨-, hdone, -, -, hie, -⟩ := completionFrame s t hb h
  rw [irq, hdone, hie, Bool.and_true]

/-- Settles O34: `DONE` is set by a completion and cleared by ACK, and a write of `CTRL` sets `IE` and keeps `DONE`. -/
theorem interruptIsALevel : Obligations.InterruptIsALevel := by
  unfold Obligations.InterruptIsALevel
  intro s
  refine ⟨fun t => irq_complete, fun hb => ?_, fun v hb => ?_⟩
  · exact ⟨_, exec_ack_idle hb, Bool.and_false s.ie⟩
  · exact ⟨_, exec_wr_idle hb .ctrl regOf_ctrl v, rfl⟩

end Sys2Proof.Machine
end

section
/-! SUPPORT. Reset (70_reset_and_hazards.md R240 to R242), and what a command reads: not the old contents of its output
(R249), and of an input buffer only the entries within the length in force (R245). -/

namespace Sys2Proof.Machine

/-! Reset -/

/-- Settles O11: every single row is the reset state's own field, and each register file is 0x00 throughout. -/
theorem resetValues : Obligations.ResetValues := by
  unfold Obligations.ResetValues
  refine ⟨rfl, rfl, rfl, rfl, rfl, rfl, rfl, rfl, rfl, rfl, rfl, rfl, rfl, rfl, rfl, rfl, rfl, rfl, rfl, ?_, ?_, ?_⟩
  all_goals exact fun i => Vector.getElem_replicate i.isLt

/-- Settles O12: the reset state is reset with nothing on its agenda. -/
theorem resetSatisfiesInvariants : Obligations.ResetSatisfiesInvariants := inv_reset_with_agenda []

/-- At an edge with `rst` = 1 nothing but reset takes place (R240). -/
theorem clockEdge_reset {p : Pins} (h : p.rst = true) (s : State) : clockEdge p s = .next (resetEdge s) := if_pos h

/-- Settles O13: the flags are those of the reset state. -/
theorem resetWinsOverEverything : Obligations.ResetWinsOverEverything := by
  unfold Obligations.ResetWinsOverEverything
  intro p s hrst
  refine ⟨clockEdge_reset hrst s, fun t ht => ?_⟩
  obtain rfl := Host.Outcome.next.inj ((clockEdge_reset hrst s).symm.trans ht)
  exact ⟨rfl, rfl, rfl, rfl, rfl⟩

/-! The old output (R249) -/

/-- Every outcome of ENCODE's completion writes `SYMS` and `SLEN` whole, and none of its tests reads them. -/
theorem encodeComplete_with_output (s : State) (x : Vector Byte 128) (n : Byte) :
    encodeComplete { s with syms := x, slen := n } = encodeComplete s := rfl

/-- Every outcome of DECODE's completion writes `BYTES` and `BLEN` whole, and none of its tests reads them. -/
theorem decodeComplete_with_output (s : State) (x : Vector Byte 16) (n : Byte) :
    decodeComplete { s with bytes := x, blen := n } = decodeComplete s := rfl

/-- Settles O59: acceptance keeps the output as it is, and the completion overwrites it. -/
theorem outputIsOverwritten : Obligations.OutputIsOverwritten := by
  unfold Obligations.OutputIsOverwritten
  intro s hb
  refine ⟨fun x n => ?_, fun x n => ?_⟩
  · rw [exec_encode_idle hb, exec_encode_idle (s := { s with syms := x, slen := n }) hb]
    exact encodeComplete_with_output (accept 0x02 (idleEdge s)) x n
  · rw [exec_decode_idle hb, exec_decode_idle (s := { s with bytes := x, blen := n }) hb]
    exact decodeComplete_with_output (accept 0x03 (idleEdge s)) x n

/-! Entries beyond the length in force (R245, 10_state.md R23) -/

/-- Register files that agree below `k` hold the same first `k` entries. -/
theorem take_toList_congr {n k : Nat} {v w : Vector Byte n} (h : ∀ i : Fin n, i.val < k → v[i] = w[i]) :
    v.toList.take k = w.toList.take k := by
  refine List.ext_getElem (by simp) fun i hv _ => ?_
  obtain ⟨hk, hn⟩ : i < k ∧ i < n := by simpa using hv
  simpa using h ⟨i, hn⟩ hk

section Encode

variable {s t : State}

/-- ENCODE keeps its input and the table. -/
theorem encodeComplete_keeps_input (h : encodeComplete s = .next t) : t.bytes = s.bytes ∧ t.alpha = s.alpha := by
  obtain ⟨_, _, ⟨_, _, _, rfl⟩ | rfl⟩ := endOf_encodeComplete h <;> exact ⟨rfl, rfl⟩

/-- ENCODE takes the same way from buffers that give the same bytes and the same alphabet. -/
theorem encodeComplete_with_input {b : Vector Byte 16} {a : Vector Byte 255}
    (hbytes : byteOperand { s with bytes := b, alpha := a } = byteOperand s)
    (halpha : alphabet { s with bytes := b, alpha := a } = alphabet s)
    (h : encodeComplete s = .next t) :
    encodeComplete { s with bytes := b, alpha := a } = .next { t with bytes := b, alpha := a } := by
  rcases encodeComplete_cases s with ⟨hv, e⟩ | ⟨hv, hn, e⟩ | ⟨-, -, -, -, e⟩ | ⟨hv, hle, hs, hA, e⟩ <;>
    cases e.symm.trans h
  · exact encodeComplete_unlocked hv
  · exact encodeComplete_badLength hv hn
  · simp only [← hbytes, ← halpha] at hA ⊢
    exact encodeComplete_succeeds hv hle hs hA

variable (hb : s.busy = false)
include hb

theorem exec_encode_keeps_input (h : exec .encode s = .next t) : t.bytes = s.bytes ∧ t.alpha = s.alpha :=
  encodeComplete_keeps_input (s := accept 0x02 (idleEdge s)) ((exec_encode_idle hb).symm.trans h)

theorem exec_encode_with_input {b : Vector Byte 16} {a : Vector Byte 255}
    (hbytes : byteOperand { s with bytes := b, alpha := a } = byteOperand s)
    (halpha : alphabet { s with bytes := b, alpha := a } = alphabet s) (h : exec .encode s = .next t) :
    exec .encode { s with bytes := b, alpha := a } = .next { t with bytes := b, alpha := a } :=
  (exec_encode_idle (s := { s with bytes := b, alpha := a }) hb).trans
    (encodeComplete_with_input (s := accept 0x02 (idleEdge s)) hbytes halpha ((exec_encode_idle hb).symm.trans h))

end Encode

section Decode

variable {s t : State}

/-- DECODE keeps its input and the table. -/
theorem decodeComplete_keeps_input (h : decodeComplete s = .next t) : t.syms = s.syms ∧ t.alpha = s.alpha := by
  obtain ⟨_, _, ⟨_, _, _, rfl⟩ | rfl⟩ := endOf_decodeComplete h <;> exact ⟨rfl, rfl⟩

/-- DECODE takes the same way from buffers that give the same string and the same alphabet. -/
theorem decodeComplete_with_input {x : Vector Byte 128} {a : Vector Byte 255}
    (hsyms : symOperand { s with syms := x, alpha := a } = symOperand s)
    (halpha : alphabet { s with syms := x, alpha := a } = alphabet s)
    (h : decodeComplete s = .next t) :
    decodeComplete { s with syms := x, alpha := a } = .next { t with syms := x, alpha := a } := by
  rcases decodeComplete_cases s with ⟨hv, e⟩ | ⟨hv, hL, e⟩ | ⟨-, -, -, e⟩ | ⟨_, _, hv, hL, hA, ho, e⟩ |
      ⟨hv, hL, hA, ho, hn, e⟩ | ⟨hv, hL, hA, ho, hle, hs, e⟩ <;>
    cases e.symm.trans h
  · exact decodeComplete_unlocked hv
  · exact decodeComplete_symLen hv hL
  · simp only [← hsyms, ← halpha] at hA ho
    exact decodeComplete_nonBase (s := { s with syms := x, alpha := a }) hv hL hA ho
  · simp only [← hsyms, ← halpha] at hA ho hn
    exact decodeComplete_byteLen hv hL hA ho hn
  · simp only [← hsyms, ← halpha] at hA ho hle hs ⊢
    exact decodeComplete_succeeds hv hL hA ho hle hs

variable (hb : s.busy = false)
include hb

theorem exec_decode_keeps_input (h : exec .decode s = .next t) : t.syms = s.syms ∧ t.alpha = s.alpha :=
  decodeComplete_keeps_input (s := accept 0x03 (idleEdge s)) ((exec_decode_idle hb).symm.trans h)

theorem exec_decode_with_input {x : Vector Byte 128} {a : Vector Byte 255}
    (hsyms : symOperand { s with syms := x, alpha := a } = symOperand s)
    (halpha : alphabet { s with syms := x, alpha := a } = alphabet s) (h : exec .decode s = .next t) :
    exec .decode { s with syms := x, alpha := a } = .next { t with syms := x, alpha := a } :=
  (exec_decode_idle (s := { s with syms := x, alpha := a }) hb).trans
    (decodeComplete_with_input (s := accept 0x03 (idleEdge s)) hsyms halpha ((exec_decode_idle hb).symm.trans h))

end Decode

/-- SETALPHA takes the same way from tables that give the same candidate. -/
theorem setalphaComplete_with_input {s t : State} {a : Vector Byte 255}
    (halpha : candidate { s with alpha := a } = candidate s) (h : setalphaComplete s = .next t) :
    setalphaComplete { s with alpha := a } = .next { t with alpha := a } := by
  rcases setalphaComplete_cases s with ⟨_, ⟨rfl, hv⟩ | ⟨hv, rfl, hN⟩ | ⟨hv, rfl, hN⟩, e⟩ | ⟨_, _, hv, h2, h255, hd, e⟩ |
      ⟨hv, h2, h255, hd, e⟩ <;>
    cases e.symm.trans h
  · exact setalphaComplete_locked hv
  · exact setalphaComplete_tooLong hv hN
  · exact setalphaComplete_tooShort hv hN
  · exact setalphaComplete_ambiguous (s := { s with alpha := a }) hv h2 h255 ((congrArg firstDup halpha).trans hd)
  · exact setalphaComplete_locks hv h2 h255 ((congrArg firstDup halpha).trans hd)

/-- Settles O60: entries that agree within the length in force give the same operand, so the completion takes the same
way; the buffer not replaced is kept. -/
theorem staleContentsAreHarmless : Obligations.StaleContentsAreHarmless := by
  unfold Obligations.StaleContentsAreHarmless
  intro s t hb
  refine ⟨fun b hagree h => ?_, fun x hagree h => ?_, fun a hagree h => ?_, fun a hagree => ⟨fun h => ?_, fun h => ?_⟩⟩
  · obtain ⟨-, hkeep⟩ := exec_encode_keeps_input hb h
    simpa only [hkeep] using exec_encode_with_input hb (b := b) (a := s.alpha) (take_toList_congr hagree) rfl h
  · obtain ⟨-, hkeep⟩ := exec_decode_keeps_input hb h
    simpa only [hkeep] using exec_decode_with_input hb (x := x) (a := s.alpha) (take_toList_congr hagree) rfl h
  · rw [exec_setalpha_idle hb] at h
    rw [exec_setalpha_idle (s := { s with alpha := a }) hb]
    exact setalphaComplete_with_input (take_toList_congr hagree) h
  · obtain ⟨hkeep, -⟩ := exec_encode_keeps_input hb h
    simpa only [hkeep] using exec_encode_with_input hb (b := s.bytes) (a := a) rfl (take_toList_congr hagree) h
  · obtain ⟨hkeep, -⟩ := exec_decode_keeps_input hb h
    simpa only [hkeep] using exec_decode_with_input hb (x := s.syms) (a := a) rfl (take_toList_congr hagree) h

end Sys2Proof.Machine
end
